-- ==== Sys2Proof/Word.lean ====
section
/-! DEFINITION. The widths the spec's values have (00_scope.md R17: bit 0 is the least significant bit). -/

namespace Sys2Proof

/-- A byte of a frame (10_state.md R29). -/
abbrev Byte := BitVec 8

/-- An event word (30_encoding.md R77), and the 16-bit operand fields IDX, x and y (R71, R79). -/
abbrev Half := BitVec 16

/-- A command word, an argument word, a pixel word, a result word (30_encoding.md R71, R72, R78, R82). -/
abbrev Word := BitVec 32

end Sys2Proof
end

