-- ==== Sys2Proof/Syntax.lean ====
section
/-! DEFINITION. The operations of spec/opcode_table.json as Instr, and what the host presents to the block as Input (30_encoding.md R70 to R75). -/

namespace Sys2Proof

/-- The two decoder instances (00_scope.md R1). -/
inductive Knob where
  | red
  | yellow
  deriving DecidableEq, Repr

/-- What the host presents (60_exceptions.md R220): a pin sample in PIN format `k c b a` (R75), a command
CW:ARG (R71), or the reset event (70_reset_and_hazards.md R230). -/
inductive Input where
  | pin (kcba : BitVec 4)
  | cmd (cw arg : Word)
  | reset
  deriving DecidableEq, Repr

/-- One constructor per row of the opcode table. An operation whose ARG is ignored (R72) does not hold it. -/
inductive Instr where
  /-- NOP (43_control.md R190). -/
  | nop
  /-- PIX.WRITE idx, value (41_led_encoder.md R130). -/
  | pixWrite (idx : Half) (value : Word)
  /-- LED.ENCODE count (41_led_encoder.md R140). -/
  | ledEncode (count : Word)
  /-- LED.TX (41_led_encoder.md R146). -/
  | ledTx
  /-- GOL.RESET seed (42_game_of_life.md R161). -/
  | golReset (seed : Word)
  /-- GOL.STEP (42_game_of_life.md R166). -/
  | golStep
  /-- GOL.READ x, y, each the 16 bits of a two's complement coordinate (42_game_of_life.md R170, R79). -/
  | golRead (x y : Half)
  /-- GOL.STATUS (42_game_of_life.md R176). -/
  | golStatus
  /-- RQD.SAMPLE k, A, B, BTN (40_rotary_decoder.md R100). -/
  | rqdSample (k : Knob) (a b c : Bool)
  /-- The reserved row: an illegal command, with its whole command word (30_encoding.md R74, 43_control.md R191).
  It stands for every illegal CW, a set RSV or IDX field among them, as the row's note says. -/
  | reserved (cw : Word)
  deriving DecidableEq, Repr

end Sys2Proof
end

