-- ==== Sys2Proof/WellFormed.lean ====
section
/-! DEFINITION. When a term of Instr stands for something the encoding can say. Written from 30_encoding.md R74 alone, apart
from the decoder, so that the statement that the two agree says something. -/

namespace Sys2Proof

/-- CW is illegal (30_encoding.md R74): CW[3:0] in 0x8..0xF, or CW[15:4] not 0, or CW[3:0] not 0x1 and CW[31:16] not 0. -/
def illegalWord (cw : Word) : Bool :=
  8 ≤ cw.toNat % 16 || cw.toNat / 16 % 4096 ≠ 0 || (cw.toNat % 16 ≠ 1 && cw.toNat / 65536 ≠ 0)

/-- Every operand has the width of its field by its type; the one check left is that the reserved row holds an illegal word. -/
def Instr.wf : Instr → Bool
  | .nop => true
  | .pixWrite _ _ => true
  | .ledEncode _ => true
  | .ledTx => true
  | .golReset _ => true
  | .golStep => true
  | .golRead _ _ => true
  | .golStatus => true
  | .rqdSample _ _ _ _ => true
  | .reserved cw => illegalWord cw

end Sys2Proof
end

