-- ==== Sys2Proof/Decode.lean ====
section
/-! DEFINITION. The decoder, total on every input (30_encoding.md R83), and the encoder (R86). A command that names no operation
decodes to `Instr.reserved`, by name; only the reset event, which is no operation, has no instruction. -/

namespace Sys2Proof

/-- RQD[k].src (10_state.md R27): RED = 0, YELLOW = 1; also bit k of a PIN pattern (30_encoding.md R75). -/
def Knob.src : Knob → BitVec 1
  | .red => 0
  | .yellow => 1

/-- Bit 3 of a PIN pattern: 0 = RED, 1 = YELLOW (30_encoding.md R75). -/
def knobOfBit (k : Bool) : Knob :=
  if k then .yellow else .red

/-- CW[3:0], the operation code (30_encoding.md R71). -/
def opcOf (cw : Word) : BitVec 4 := cw.extractLsb' 0 4

/-- CW[15:4], reserved (30_encoding.md R71). -/
def rsvOf (cw : Word) : BitVec 12 := cw.extractLsb' 4 12

/-- CW[31:16], the pixel index of PIX.WRITE (30_encoding.md R71). -/
def idxOf (cw : Word) : Half := cw.extractLsb' 16 16

/-- ARG[15:0], the bits of x (30_encoding.md R79). -/
def argLow (arg : Word) : Half := arg.extractLsb' 0 16

/-- ARG[31:16], the bits of y (30_encoding.md R79). -/
def argHigh (arg : Word) : Half := arg.extractLsb' 16 16

/-- The command decoder of 30_encoding.md R83, in its order of checks. -/
def decodeCmd (cw arg : Word) : Instr :=
  if 8 ≤ (opcOf cw).toNat then .reserved cw
  else if rsvOf cw ≠ 0 then .reserved cw
  else if opcOf cw ≠ 1 ∧ idxOf cw ≠ 0 then .reserved cw
  else
    match (opcOf cw).toNat with
    | 0 => .nop
    | 1 => .pixWrite (idxOf cw) arg
    | 2 => .ledEncode arg
    | 3 => .ledTx
    | 4 => .golReset arg
    | 5 => .golStep
    | 6 => .golRead (argLow arg) (argHigh arg)
    | 7 => .golStatus
    | _ => .reserved cw

/-- A PIN sample always decodes (30_encoding.md R75, R83): bit 3 k, bit 2 BTN, bit 1 B, bit 0 A. -/
def decodePin (p : BitVec 4) : Instr :=
  .rqdSample (knobOfBit (p.getLsbD 3)) (p.getLsbD 0) (p.getLsbD 1) (p.getLsbD 2)

/-- The operation an input asks for; the reset event is none. -/
def decode : Input → Option Instr
  | .pin p => some (decodePin p)
  | .cmd cw arg => some (decodeCmd cw arg)
  | .reset => none

/-- The PIN pattern `k c b a` (30_encoding.md R75). -/
def pinWord (k : Knob) (a b c : Bool) : BitVec 4 :=
  k.src ++ BitVec.ofBool c ++ BitVec.ofBool b ++ BitVec.ofBool a

/-- The encodings of 30_encoding.md R86; where ARG is ignored the encoder emits 0, as assemblers do. -/
def encode : Instr → Input
  | .nop => .cmd 0x00000000 0
  | .pixWrite idx value => .cmd (idx ++ 0x0001#16) value
  | .ledEncode count => .cmd 0x00000002 count
  | .ledTx => .cmd 0x00000003 0
  | .golReset seed => .cmd 0x00000004 seed
  | .golStep => .cmd 0x00000005 0
  | .golRead x y => .cmd 0x00000006 (y ++ x)
  | .golStatus => .cmd 0x00000007 0
  | .rqdSample k a b c => .pin (pinWord k a b c)
  | .reserved cw => .cmd cw 0

/-- The input whose bits are w, numbered as spec/opcode_table.json numbers them (log entry 11): a row of at most one
byte is a PIN pattern in bits 3:0; any other row is a command, CW in bits 31:0 and ARG, its second word, in bits 63:32. -/
def inputOfTableWord (nbits w : Nat) : Option Input :=
  if nbits ≤ 8 then
    if w < 16 then some (.pin (BitVec.ofNat 4 w)) else none
  else if w < 2 ^ 64 then some (.cmd (BitVec.ofNat 32 w) (BitVec.ofNat 32 (w / 2 ^ 32)))
  else none

/-- The instruction the decoder reads from the bits w of a row of the opcode table. -/
def decodeTableWord (nbits w : Nat) : Option Instr :=
  (inputOfTableWord nbits w).bind decode

end Sys2Proof
end

