-- ==== Sys2Proof/Config.lean ====
section
/-! DEFINITION. The build-time parameters of one block (00_scope.md R7 to R15, 41_led_encoder.md R148) and the reference configuration (92_eei_decisions.md D44).
What is computed from them, and the check a configuration must pass, stand in Machine/Params.lean. -/

namespace Sys2Proof

/-- P_BTN_MODE (00_scope.md R8): the two button-event variants, which a model must not merge. -/
inductive BtnMode where
  | paired
  | single
  deriving DecidableEq, Repr

/-- The parameters of one block: the argument list of 92_eei_decisions.md. Parameters that the spec gives per decoder instance have one
field for each. -/
structure Config where
  /-- P_NOTCH[RED] (R7). -/
  notchRed : Nat
  /-- P_NOTCH[YELLOW] (R7). -/
  notchYellow : Nat
  /-- P_BTN_MODE (R8). -/
  btnMode : BtnMode
  /-- P_BTN_ACTIVE[RED] (R9): the level that means pressed. -/
  btnActiveRed : Bool
  /-- P_BTN_ACTIVE[YELLOW] (R9). -/
  btnActiveYellow : Bool
  /-- P_QUAD_INVERT (R10). -/
  quadInvert : Bool
  /-- P_N_LEDS (R11). -/
  nLeds : Nat
  /-- P_COLS (R12). -/
  cols : Nat
  /-- P_RESET_BYTES (R13). -/
  resetBytes : Nat
  /-- P_GOL_W (R15). -/
  golW : Nat
  /-- P_GOL_H (R15). -/
  golH : Nat
  /-- P_SERIAL_RATE in bits per second (41_led_encoder.md R148): OPEN, any number, and no rule depends on it. It is none where no rate is
  given, as the spec gives none for the reference configuration (log entry 12). -/
  serialRate : Option Nat
  deriving DecidableEq, Repr

/-- The reference configuration (92_eei_decisions.md D44), which State.reset has
(DESIGN CHOICE, log entry 1: every other statement is over all configurations). -/
def Config.reference : Config where
  notchRed := 18
  notchYellow := 19
  btnMode := .paired
  btnActiveRed := true
  btnActiveYellow := true
  quadInvert := false
  nLeds := 144
  cols := 12
  resetBytes := 64
  golW := 12
  golH := 12
  serialRate := none

end Sys2Proof
end

