-- ==== Sys2Proof/Machine/Params.lean ====
section
/-! DEFINITION. What the rules compute from the parameters, and the check a configuration must pass before the block runs (00_scope.md R7 to R15). -/

namespace Sys2Proof

/-- P_NOTCH[k] (00_scope.md R7). -/
def Config.notch (c : Config) : Knob → Nat
  | .red => c.notchRed
  | .yellow => c.notchYellow

/-- P_BTN_ACTIVE[k] (00_scope.md R9). -/
def Config.btnActive (c : Config) : Knob → Bool
  | .red => c.btnActiveRed
  | .yellow => c.btnActiveYellow

/-- BYTES_PER_LED (00_scope.md R14). -/
def bytesPerLed : Nat := 16

/-- FRAME_LEN = 2 * P_RESET_BYTES + 16 * P_N_LEDS (00_scope.md R14). -/
def Config.frameLen (c : Config) : Nat := 2 * c.resetBytes + bytesPerLed * c.nLeds

/-- The number of bits of GRID (10_state.md R31). -/
def Config.cells (c : Config) : Nat := c.golW * c.golH

/-- The bits one LED.TX sends (70_reset_and_hazards.md R248). -/
def Config.wireBits (c : Config) : Nat := c.frameLen * 8

/-- The seconds one LED.TX occupies the line: FRAME_LEN * 8 / r at the rate r (70_reset_and_hazards.md R248), a figure no rule
depends on; none where no rate is given, or the rate 0. -/
def Config.wireTime (c : Config) : Option Rat :=
  match c.serialRate with
  | none => none
  | some r => if r = 0 then none else some ((c.wireBits : Rat) / r)

/-- Every parameter is in its range (R7, R11, R15) and CFG_SQUARE holds (R12). A model refuses any other configuration
(93_implementation_defined.md row 9). -/
def Config.valid (c : Config) : Bool :=
  c.notchRed ≤ 255 && c.notchYellow ≤ 255 && 1 ≤ c.nLeds && c.nLeds = c.cols * c.cols
    && 1 ≤ c.golW && c.golW ≤ 32767 && 1 ≤ c.golH && c.golH ≤ 32767

end Sys2Proof
end

