-- ==== Sys2Proof/Machine/State.lean ====
section
/-! DEFINITION. The state of the block as plain data (10_state.md R20 to R41), the reasons a step can stop, and the state after
reset (70_reset_and_hazards.md R231). The block has no registers of a program, no program counter and no mode (R20, R21, R210). -/

namespace Sys2Proof.Machine

/-- An index space as a list of (index, element) in canonical form: indices strictly rising, and no entry equal to
what an unlisted index reads as (`pixBlank`, `fbBlank`, `gridBlank` and `Memory.wf` in Ops.lean). -/
abbrev Memory (α : Type) := List (Nat × α)

/-- CMDSTATE (10_state.md R37): IDLE accepts the next command, HUNG never accepts one again until reset. -/
inductive CmdState where
  | idle
  | hung
  deriving DecidableEq, Repr

/-- One decoder instance (10_state.md R22 to R26); its constant tag src (R27) is `Knob.src`. -/
structure Rqd where
  /-- R22: the last phase seen, after inversion. -/
  phase : BitVec 2
  /-- R23: the net quarter-steps since the detent phase, a two's complement number. -/
  acc : BitVec 4
  /-- R24: an invalid transition was seen since the last visit to the detent phase. -/
  lost : Bool
  /-- R25: the position, in [0, P_NOTCH[k]]. -/
  pos : BitVec 8
  /-- R26: the last recorded pressed-state. -/
  btn : Bool
  deriving DecidableEq, Repr

/-- The whole state. `cfg` and `inputs` are the model's own fields (log entries 1 and 2); every other field is the spec's. -/
@[ext]
structure State where
  /-- The parameters (00_scope.md R7 to R15, 41_led_encoder.md R148); no operation changes them. -/
  cfg : Config
  /-- RQD[RED] (10_state.md R22 to R26). -/
  rqdRed : Rqd
  /-- RQD[YELLOW] (10_state.md R22 to R26). -/
  rqdYellow : Rqd
  /-- EV[RED], oldest word first (10_state.md R38). -/
  evRed : List Half
  /-- EV[YELLOW], oldest word first (10_state.md R38). -/
  evYellow : List Half
  /-- PIX (10_state.md R28). -/
  pix : Memory Word
  /-- FB (10_state.md R29). -/
  fb : Memory Byte
  /-- LEDENC.FB_VALID (10_state.md R30). -/
  fbValid : Bool
  /-- TX, oldest byte first (10_state.md R38). -/
  tx : List Byte
  /-- GRID by cell number c = y * P_GOL_W + x (10_state.md R31). -/
  grid : Memory Bool
  /-- GOL.GRID_VALID (10_state.md R32). -/
  gridValid : Bool
  /-- GOL.CHANGED (10_state.md R33). -/
  changed : Bool
  /-- ERR (10_state.md R35). -/
  err : BitVec 4
  /-- RESULT (10_state.md R36). -/
  result : Word
  /-- CMDSTATE (10_state.md R37). -/
  cmdState : CmdState
  /-- What the host presents and no agent has taken yet, oldest first (60_exceptions.md R216, R220). -/
  inputs : List Input
  deriving DecidableEq, Repr

/-- Why the machine stops. -/
inductive Fault where
  /-- A command is presented while CMDSTATE = HUNG and no other agent has an input to take: the stuck state of
  60_exceptions.md R207, which is no final state. Raised by every command's meaning through `command`. Safe. -/
  | commandPortHung
  /-- RQD.SAMPLE finds its instance outside 10_state.md R43, R44 or R46: impossible by construction, a model defect that must
  stop the model (60_exceptions.md R206). Raised by `sample`; no run from reset reaches it. Safe. -/
  | rqdDefect
  /-- LED.TX finds FB_VALID = 1 and a byte of FB that no LED.ENCODE wrote (10_state.md R45, 60_exceptions.md R206).
  Raised by LED.TX; no run from reset reaches it. Safe. -/
  | frameDefect
  /-- GOL.STEP, GOL.READ or GOL.STATUS finds GRID_VALID = 1 and a cell that no GOL.RESET wrote (10_state.md R45,
  60_exceptions.md R206). Raised by `withGrid` and GOL.READ; no run from reset reaches it. Safe. -/
  | gridDefect
  deriving DecidableEq, Repr

/-- Why the model does not run an operation. -/
inductive Refusal where
  /-- The instruction has no meaning yet; only an arm of exec says so. Safe. -/
  | notModelled (mnemonic : String)
  /-- The configuration is out of range or breaks CFG_SQUARE: a model refuses it and does not run it (00_scope.md R12,
  93_implementation_defined.md row 9). Raised by every operation, by reset and by an idle step through `guardConfig`. Safe. -/
  | badConfiguration
  deriving DecidableEq, Repr

/-- A decoder instance after reset (70_reset_and_hazards.md R231): at the detent, nothing counted, position 0, released. -/
def Rqd.reset : Rqd where
  phase := 0b00
  acc := 0
  lost := false
  pos := 0
  btn := false

/-- The state after reset of a block with the parameters c (70_reset_and_hazards.md R231): PIX reads 0 everywhere, FB and
GRID hold nothing known (log entry 7), the output logs are empty and nothing is pending (R230). -/
def State.resetWith (c : Config) : State where
  cfg := c
  rqdRed := Rqd.reset
  rqdYellow := Rqd.reset
  evRed := []
  evYellow := []
  pix := []
  fb := []
  fbValid := false
  tx := []
  grid := []
  gridValid := false
  changed := false
  err := 0
  result := 0
  cmdState := .idle
  inputs := []

/-- The state after reset of the block in the reference configuration (92_eei_decisions.md D44; log entry 1). -/
def State.reset : State := State.resetWith Config.reference

end Sys2Proof.Machine
end

