-- ==== Sys2Proof/Machine/Ops.lean ====
section
/-! DEFINITION. The named operations over state that every meaning is written with: the index spaces, the registers and logs, the
response of a command, the error, the guards of the two kinds of operation, the reset event and the choice of the next input. -/

namespace Sys2Proof.Machine

/-- What a meaning answers. -/
abbrev Outcome := Host.Outcome State Fault Refusal

/-! ## Index spaces (20_memory.md R50) -/

/-- What an unlisted index of PIX reads as: the reset value 0 (10_state.md R28). -/
def pixBlank : Option Word := some 0

/-- What an unlisted index of FB reads as: nothing known (10_state.md R29; log entry 7). -/
def fbBlank : Option Byte := none

/-- What an unlisted cell of GRID reads as: nothing known (10_state.md R31; log entry 7). -/
def gridBlank : Option Bool := none

/-- The entry listed for the index a. -/
def Memory.find {α : Type} (a : Nat) : Memory α → Option α
  | [] => none
  | (k, v) :: m => if k = a then some v else Memory.find a m

/-- What the index a reads as. -/
def Memory.read {α : Type} (blank : Option α) (m : Memory α) (a : Nat) : Option α :=
  (Memory.find a m).or blank

/-- The list without the index a. -/
def Memory.erase {α : Type} (a : Nat) : Memory α → Memory α
  | [] => []
  | (k, v) :: m => if k = a then m else (k, v) :: Memory.erase a m

/-- The list with v at the index a, in its place in the order. -/
def Memory.insert {α : Type} (a : Nat) (v : α) : Memory α → Memory α
  | [] => [(a, v)]
  | (k, w) :: m =>
    if a < k then (a, v) :: (k, w) :: m
    else if k = a then (a, v) :: m
    else (k, w) :: Memory.insert a v m

/-- Writing v at the index a; the value that an unlisted index reads as is not listed. -/
def Memory.write {α : Type} [DecidableEq α] (blank : Option α) (m : Memory α) (a : Nat) (v : α) : Memory α :=
  if blank = some v then Memory.erase a m else Memory.insert a v m

/-- A whole space written at once: the elements in index order from the index a on. -/
def Memory.load {α : Type} (a : Nat) : List α → Memory α
  | [] => []
  | v :: vs => (a, v) :: Memory.load (a + 1) vs

/-- A whole space read at once: the n elements from the index a on, if the list holds each of them. -/
def Memory.dump {α : Type} (a : Nat) : Nat → Memory α → Option (List α)
  | 0, _ => some []
  | _ + 1, [] => none
  | n + 1, (k, v) :: m => if k = a then (Memory.dump (a + 1) n m).map (v :: ·) else none

/-- The canonical form: indices strictly rising from lo, and no entry equal to what an unlisted index reads as. -/
def Memory.wfFrom {α : Type} [DecidableEq α] (blank : Option α) (lo : Nat) : Memory α → Bool
  | [] => true
  | (k, v) :: m => lo ≤ k && blank ≠ some v && Memory.wfFrom blank (k + 1) m

/-- The canonical form of an index space. -/
def Memory.wf {α : Type} [DecidableEq α] (blank : Option α) (m : Memory α) : Bool :=
  Memory.wfFrom blank 0 m

/-! ## Registers and logs -/

/-- RQD[k]. -/
def State.rqd (s : State) : Knob → Rqd
  | .red => s.rqdRed
  | .yellow => s.rqdYellow

/-- EV[k]. -/
def State.ev (s : State) : Knob → List Half
  | .red => s.evRed
  | .yellow => s.evYellow

/-- RQD[k] <- r. -/
def State.setRqd (s : State) (k : Knob) (r : Rqd) : State :=
  match k with
  | .red => { s with rqdRed := r }
  | .yellow => { s with rqdYellow := r }

/-- emit(EV[k], w) for each w in order (00_scope.md R17); the block never waits for the consumer (40_rotary_decoder.md R109). -/
def State.emitEv (s : State) (k : Knob) (ws : List Half) : State :=
  match k with
  | .red => { s with evRed := s.evRed ++ ws }
  | .yellow => { s with evYellow := s.evYellow ++ ws }

/-- emit(TX, b) for each b in order (00_scope.md R17). -/
def State.emitTx (s : State) (bs : List Byte) : State :=
  { s with tx := s.tx ++ bs }

/-- PIX[i]. -/
def State.readPix (s : State) (i : Nat) : Word :=
  (Memory.read pixBlank s.pix i).getD 0

/-- PIX[i] <- v (20_memory.md R54: one whole word). -/
def State.writePix (s : State) (i : Nat) (v : Word) : State :=
  { s with pix := Memory.write pixBlank s.pix i v }

/-- FB[j]; none where nothing has written it. -/
def State.readFb (s : State) (j : Nat) : Option Byte :=
  Memory.read fbBlank s.fb j

/-- All of FB in index order, if an LED.ENCODE has written it. -/
def State.frame (s : State) : Option (List Byte) :=
  Memory.dump 0 s.cfg.frameLen s.fb

/-- Every byte of FB is written (20_memory.md R54) and FB_VALID <- 1 (41_led_encoder.md R140). -/
def State.setFrame (s : State) (bs : List Byte) : State :=
  { s with fb := Memory.load 0 bs, fbValid := true }

/-- The bit of GRID with cell number c (10_state.md R31); none where nothing has written it. -/
def State.readCell (s : State) (c : Nat) : Option Bool :=
  Memory.read gridBlank s.grid c

/-- All of GRID in row-major order, if a GOL.RESET has written it. -/
def State.cells (s : State) : Option (List Bool) :=
  Memory.dump 0 s.cfg.cells s.grid

/-- Every bit of GRID is written (20_memory.md R54), GRID_VALID <- 1 and CHANGED <- ch (42_game_of_life.md R161, R166:
GOL.STEP finds GRID_VALID at 1 already). -/
def State.setGrid (s : State) (cells : List Bool) (ch : Bool) : State :=
  { s with grid := Memory.load 0 cells, gridValid := true, changed := ch }

/-- ERR <- e and RESULT <- r. -/
def State.setResponse (s : State) (e : BitVec 4) (r : Word) : State :=
  { s with err := e, result := r }

/-- CMDSTATE <- HUNG (60_exceptions.md R207). -/
def State.setHung (s : State) : State :=
  { s with cmdState := .hung }

/-- The inputs that are left. -/
def State.setInputs (s : State) (l : List Input) : State :=
  { s with inputs := l }

/-! ## Completion and errors of a command -/

/-- The error codes (60_exceptions.md R201). -/
inductive ErrCode where
  | ok
  | illegal
  | badIndex
  | badCount
  | noFrame
  | noGrid
  deriving DecidableEq, Repr

/-- The 4-bit code in ERR (60_exceptions.md R201). -/
def errBits : ErrCode → BitVec 4
  | .ok => 0
  | .illegal => 1
  | .badIndex => 2
  | .badCount => 3
  | .noFrame => 4
  | .noGrid => 5

/-- What a host reads in ERR; the codes 6 to 15 are never written and a reader refuses them
(60_exceptions.md R201, 93_implementation_defined.md row 8). -/
def errOfBits (e : BitVec 4) : Option ErrCode :=
  [ErrCode.ok, .illegal, .badIndex, .badCount, .noFrame, .noGrid].find? (fun c => errBits c = e)

/-- respond(result) (00_scope.md R17): ERR <- 0 and RESULT <- result. -/
def respond (s : State) (r : Word) : Outcome :=
  .next (s.setResponse (errBits .ok) r)

/-- raise Error(code) (60_exceptions.md R203), the block's one way to take an error: ERR <- code, RESULT <- 0 and nothing
else. There is nothing to return from (R204). -/
def raiseError (s : State) (c : ErrCode) : Outcome :=
  .next (s.setResponse (errBits c) 0)

/-- The operation never completes (60_exceptions.md R207): it is accepted, CMDSTATE <- HUNG, and ERR and RESULT are not written. -/
def neverCompletes (s : State) : Outcome :=
  .next s.setHung

/-- A configuration that breaks a check is refused (00_scope.md R12; log entry 9). -/
def guardConfig (s : State) (body : State → Outcome) : Outcome :=
  if s.cfg.valid then body s else .refused .badConfiguration

/-- A command: it is accepted only when CMDSTATE = IDLE (60_exceptions.md R216); presented to a HUNG port it has no step
(R207; log entry 6). -/
def command (s : State) (body : State → Outcome) : Outcome :=
  guardConfig s fun s =>
    match s.cmdState with
    | .idle => body s
    | .hung => .fault .commandPortHung

/-- The body of a command that needs a grid: NO_GRID when GRID_VALID = 0 (60_exceptions.md R201), else it is given
GRID in row-major order. -/
def withGrid (s : State) (body : List Bool → Outcome) : Outcome :=
  if s.gridValid then
    match s.cells with
    | some g => body g
    | none => .fault .gridDefect
  else raiseError s .noGrid

/-- The reset event (70_reset_and_hazards.md R230, R231), possible in every state, a HUNG one among them. The inputs
of s are those that the host presents after the reset. -/
def resetEvent (s : State) : Outcome :=
  guardConfig s fun s => .next ((State.resetWith s.cfg).setInputs s.inputs)

/-- A step in which no agent has an input: the block waits, and nothing changes (log entry 4). -/
def idleStep (s : State) : Outcome :=
  guardConfig s fun s => .next s

/-! ## The next input -/

/-- The first input that is not a command, with the inputs that are left: the commands before it keep waiting, and a
reset ends their waiting (70_reset_and_hazards.md R230: after reset no sample or command is pending; log entry 5). -/
def firstReady : List Input → Option (Input × List Input)
  | [] => none
  | .pin p :: l => some (.pin p, l)
  | .reset :: l => some (.reset, l)
  | .cmd cw arg :: l =>
    match firstReady l with
    | none => none
    | some (.reset, r) => some (.reset, r)
    | some (i, r) => some (i, .cmd cw arg :: r)

/-- The input a step takes and the inputs that are left. A HUNG port accepts no command, so there the other agents'
inputs come first, and a command is taken, to fault, only when nothing else is left (60_exceptions.md R207, R215). -/
def fetch (s : State) : Option (Input × List Input) :=
  match s.cmdState, s.inputs with
  | _, [] => none
  | .idle, i :: l => some (i, l)
  | .hung, i :: l =>
    match firstReady (i :: l) with
    | some r => some r
    | none => some (i, l)

end Sys2Proof.Machine
end

