-- ==== Sys2Proof/Machine/Control.lean ====
section
/-! DEFINITION. The command-port operations that belong to no unit (43_control.md). -/

namespace Sys2Proof.Machine

/-- NOP (43_control.md R190): ERR = 0 and RESULT = 0. -/
def execNop (s : State) : Outcome :=
  command s fun s => respond s 0

/-- A reserved opcode or an illegal command word (43_control.md R191): ILLEGAL and no other change. -/
def execReserved (_cw : Word) (s : State) : Outcome :=
  command s fun s => raiseError s .illegal

end Sys2Proof.Machine
end

