-- ==== Sys2Proof/Machine/Operands.lean ====
section
/-! DEFINITION. Operand and word formats: coordinates (30_encoding.md R79, 42_game_of_life.md R160), pixel channels (R78), event
words (R76, R77) and one-bit results (R82). -/

namespace Sys2Proof.Machine

/-! ## Coordinates -/

/-- sext_16 of a coordinate field (30_encoding.md R79). -/
def coord (v : Half) : Int := v.toInt

/-- a emod b (00_scope.md R17): the Euclidean remainder, as an index. -/
def emodIdx (a : Int) (b : Nat) : Nat := (a % (b : Int)).toNat

/-- The cell number y * P_GOL_W + x (10_state.md R31) of the coordinates (x, y) after normalisation (42_game_of_life.md R160). -/
def cellNumber (c : Config) (x y : Int) : Nat :=
  emodIdx y c.golH * c.golW + emodIdx x c.golW

/-! ## Pixel words (30_encoding.md R78) -/

/-- PIXW[31:24]. -/
def redOf (px : Word) : Byte := px.extractLsb' 24 8

/-- PIXW[23:16]. -/
def greenOf (px : Word) : Byte := px.extractLsb' 16 8

/-- PIXW[15:8]. -/
def blueOf (px : Word) : Byte := px.extractLsb' 8 8

/-- PIXW[7:0]. -/
def whiteOf (px : Word) : Byte := px.extractLsb' 0 8

/-! ## Event words -/

/-- The event kinds (30_encoding.md R76). -/
inductive EvKind where
  | rotatedClockwise
  | rotatedCounterClockwise
  | buttonDown
  | buttonUp
  | button
  deriving DecidableEq, Repr

/-- KIND (30_encoding.md R76); 0b101 to 0b111 are never emitted. -/
def kindBits : EvKind → BitVec 3
  | .rotatedClockwise => 0b000
  | .rotatedCounterClockwise => 0b001
  | .buttonDown => 0b010
  | .buttonUp => 0b011
  | .button => 0b100

/-- evword(src, kind, pos) = POS in 15:8, zero in 7:4, SRC in bit 3, KIND in 2:0 (30_encoding.md R77). -/
def evword (src : BitVec 1) (kind : EvKind) (pos : BitVec 8) : Half :=
  pos ++ 0b0000#4 ++ src ++ kindBits kind

/-- What a consumer reads in an event word: the instance, the kind and POS; it refuses a reserved KIND and a set RSV field
(30_encoding.md R77, 93_implementation_defined.md row 7). -/
def readEvent (w : Half) : Option (Knob × EvKind × BitVec 8) :=
  if w.extractLsb' 4 4 ≠ 0 then none
  else
    ([EvKind.rotatedClockwise, .rotatedCounterClockwise, .buttonDown, .buttonUp, .button].find?
        (fun e => kindBits e = w.extractLsb' 0 3)).map
      fun e => (knobOfBit (w.getLsbD 3), e, w.extractLsb' 8 8)

/-! ## Results -/

/-- zext_32 of one bit (30_encoding.md R82: bit 0, bits 31:1 = 0). -/
def bitWord (b : Bool) : Word := if b then 1 else 0

end Sys2Proof.Machine
end

