-- ==== Sys2Proof/Machine/Led.lean ====
section
/-! DEFINITION. LEDENC, the LED serial-bitstream encoder with physical pixel remap (41_led_encoder.md). -/

namespace Sys2Proof.Machine

/-! ## The transform -/

/-- T[g], the byte template of a 2-bit group (41_led_encoder.md R131). No group is out of range (R144). -/
def template (g : BitVec 2) : Byte :=
  if g = 0b00 then 0x88 else if g = 0b01 then 0x8C else if g = 0b10 then 0xC8 else 0xCC

/-- enc_ch(v): the four groups of a channel, most significant first (41_led_encoder.md R132). -/
def encCh (v : Byte) : List Byte :=
  [template (v.extractLsb' 6 2), template (v.extractLsb' 4 2), template (v.extractLsb' 2 2), template (v.extractLsb' 0 2)]

/-- enc_px(px): green, red, blue, white (41_led_encoder.md R133). -/
def encPx (px : Word) : List Byte :=
  encCh (greenOf px) ++ encCh (redOf px) ++ encCh (blueOf px) ++ encCh (whiteOf px)

/-- dec(b): the group whose template is b (41_led_encoder.md R143). -/
def untemplate (b : Byte) : Option (BitVec 2) :=
  if b = 0x88 then some 0b00 else if b = 0x8C then some 0b01 else if b = 0xC8 then some 0b10
  else if b = 0xCC then some 0b11 else none

/-- The channel value of four template bytes: dec(e0)*64 + dec(e1)*16 + dec(e2)*4 + dec(e3) (41_led_encoder.md R143). -/
def decCh : List Byte → Option Nat
  | [e0, e1, e2, e3] =>
    match untemplate e0, untemplate e1, untemplate e2, untemplate e3 with
    | some g0, some g1, some g2, some g3 => some (g0.toNat * 64 + g1.toNat * 16 + g2.toNat * 4 + g3.toNat)
    | _, _, _, _ => none
  | _ => none

/-- The bits of a byte in the order of the serial line: most significant first (20_memory.md R53). -/
def serialBits (b : Byte) : List Bool :=
  (List.range 8).map fun i => b.getLsbD (7 - i)

/-- The physical slot of the logical index i on a panel of cols columns (41_led_encoder.md R136). -/
def remap (cols i : Nat) : Nat :=
  let x := i % cols
  let y := i / cols
  if x % 2 = 0 then x * cols + y else (x + 1) * cols - y - 1

/-- The logical index of the physical slot o (41_led_encoder.md R137). -/
def unremap (cols o : Nat) : Nat :=
  let x := o / cols
  let r := o % cols
  let y := if x % 2 = 0 then r else cols - 1 - r
  y * cols + x

/-- The pixel encoded for the logical index i when count pixels are supplied (41_led_encoder.md R138). -/
def suppliedPixel (s : State) (count i : Nat) : Word :=
  if i < count then s.readPix i else 0

/-- The frame of count supplied pixels, laid out as 41_led_encoder.md R139: the leading gap, the slots in physical order,
the trailing gap (log entry 13: R140 writes the same bytes in logical order). -/
def frameBytes (s : State) (count : Nat) : List Byte :=
  List.replicate s.cfg.resetBytes 0x00
    ++ (List.range s.cfg.nLeds).flatMap (fun o => encPx (suppliedPixel s count (unremap s.cfg.cols o)))
    ++ List.replicate s.cfg.resetBytes 0x00

/-! ## The operations -/

/-- PIX.WRITE (41_led_encoder.md R130). -/
def execPixWrite (idx : Half) (value : Word) (s : State) : Outcome :=
  command s fun s =>
    if s.cfg.nLeds ≤ idx.toNat then raiseError s .badIndex
    else respond (s.writePix idx.toNat value) 0

/-- LED.ENCODE (41_led_encoder.md R140, R141). -/
def execLedEncode (count : Word) (s : State) : Outcome :=
  command s fun s =>
    if s.cfg.nLeds < count.toNat then raiseError s .badCount
    else respond (s.setFrame (frameBytes s count.toNat)) 0

/-- LED.TX (41_led_encoder.md R146); it reports success whatever the serial bus does (R147). -/
def execLedTx (s : State) : Outcome :=
  command s fun s =>
    if s.fbValid then
      match s.frame with
      | some bs => respond (s.emitTx bs) 0
      | none => .fault .frameDefect
    else raiseError s .noFrame

end Sys2Proof.Machine
end

