-- ==== Sys2Proof/Machine/Flags.lean ====
section
/-! DEFINITION. The flags the rules compute (10_state.md R40): pressed-state, changed, ALL_DEAD and the GOL status word, and the
invariant of a decoder instance (R43, R44, R46). -/

namespace Sys2Proof.Machine

/-- pressed = (BTN = P_BTN_ACTIVE[k]) (40_rotary_decoder.md R106). -/
def pressed (c : Config) (k : Knob) (level : Bool) : Bool :=
  level == c.btnActive k

/-- The number of live cells (00_scope.md R19). -/
def population (g : List Bool) : Nat := g.count true

/-- No cell of the grid is live (10_state.md R34). -/
def noneAlive (g : List Bool) : Bool := population g = 0

/-- changed = 1 exactly when some cell of the new grid differs from the same cell of the old one (42_game_of_life.md R171). -/
def gridChanged (old new : List Bool) : Bool := new ≠ old

/-- The GOL status word: 29 zero bits, GRID_VALID, ALL_DEAD, CHANGED (42_game_of_life.md R176, 10_state.md R41). -/
def statusWord (gridValid allDead changed : Bool) : Word :=
  0#29 ++ BitVec.ofBool gridValid ++ BitVec.ofBool allDead ++ BitVec.ofBool changed

/-- ALL_DEAD = GRID_VALID and (population(GRID) = 0) (10_state.md R34), derived and not stored. -/
def State.allDead (s : State) : Bool :=
  s.gridValid && (s.cells.map noneAlive).getD false

/-- idx of a phase in the clockwise order 00, 10, 11, 01 (10_state.md R44). -/
def phaseIdx (p : BitVec 2) : Nat :=
  if p = 0b00 then 0 else if p = 0b10 then 1 else if p = 0b11 then 2 else 3

/-- A decoder instance with notch maximum n is as it must be between operations: pos <= n (10_state.md R43), acc in [-3, 3] (R46),
and acc congruent to idx(phase) modulo 4 when lost = 0, acc = 0 when lost = 1 (R44). -/
def Rqd.ok (n : Nat) (r : Rqd) : Bool :=
  r.pos.toNat ≤ n && -3 ≤ r.acc.toInt && r.acc.toInt ≤ 3
    && (if r.lost then r.acc = 0 else r.acc.toInt % 4 = phaseIdx r.phase)

end Sys2Proof.Machine
end

