-- ==== Sys2Proof/Machine/Life.lean ====
section
/-! DEFINITION. GOL, the Game-of-Life stepper on a toroidal grid (42_game_of_life.md). A whole grid is the list of its cells in
row-major order (10_state.md R31). -/

namespace Sys2Proof.Machine

/-! ## Seeding (42_game_of_life.md R161 to R165) -/

/-- One multiplication of the working value, modulo 2^32 (42_game_of_life.md R161, 00_scope.md R16). -/
def times13 (v : Word) : Word := v * 13

/-- At most n rounds of the warm-up: while v < 128, v <- v * 13 (42_game_of_life.md R162). -/
def warmUp : Nat → Word → Word
  | 0, v => v
  | n + 1, v => if v < 128 then warmUp n (times13 v) else v

/-- No seed but 0 needs more rounds (42_game_of_life.md R161; log entry 14). -/
def warmUpRounds : Nat := 2

/-- The working value after a cell has been read: shifted right, and multiplied once if below 128 (42_game_of_life.md R161, R164). -/
def nextWorking (v : Word) : Word :=
  let v := v >>> 1
  if v < 128 then times13 v else v

/-- n cells in row-major order from the working value v: each takes bit 0 (42_game_of_life.md R161, R164). -/
def seedCells : Nat → Word → List Bool
  | 0, _ => []
  | n + 1, v => v.getLsbD 0 :: seedCells n (nextWorking v)

/-- The grid of a seed other than 0: a function of (seed, W, H) alone (42_game_of_life.md R165). -/
def seededGrid (c : Config) (seed : Word) : List Bool :=
  seedCells c.cells (warmUp warmUpRounds seed)

/-! ## Stepping (42_game_of_life.md R166 to R173) -/

/-- The cell of a whole grid at integer coordinates, normalised (42_game_of_life.md R160). -/
def cellAt (c : Config) (g : List Bool) (x y : Int) : Bool :=
  g.getD (cellNumber c x y) false

/-- The 8 offsets of the neighbour count (42_game_of_life.md R167). -/
def offsets : List (Int × Int) :=
  [(-1, -1), (0, -1), (1, -1), (-1, 0), (1, 0), (-1, 1), (0, 1), (1, 1)]

/-- n: the live cells at the 8 positions, each position counted separately (42_game_of_life.md R167, R172). -/
def neighbours (c : Config) (g : List Bool) (x y : Int) : Nat :=
  offsets.countP fun d => cellAt c g (x + d.1) (y + d.2)

/-- The life rule (42_game_of_life.md R168). -/
def lifeRule (old : Bool) (n : Nat) : Bool :=
  if old then n == 2 || n == 3 else n == 3

/-- The new value of the cell (x, y), from the grid as it was before the step (42_game_of_life.md R169). -/
def newCell (c : Config) (g : List Bool) (x y : Int) : Bool :=
  lifeRule (cellAt c g x y) (neighbours c g x y)

/-- The grid after one generation: y is the outer loop, x the inner (42_game_of_life.md R166). -/
def nextGrid (c : Config) (g : List Bool) : List Bool :=
  (List.range c.cells).map fun i => newCell c g (i % c.golW : Nat) (i / c.golW : Nat)

/-! ## The operations -/

/-- GOL.RESET (42_game_of_life.md R161); with seed 0 it never completes (R163). -/
def execGolReset (seed : Word) (s : State) : Outcome :=
  command s fun s =>
    if seed = 0 then neverCompletes s
    else respond (s.setGrid (seededGrid s.cfg seed) false) 0

/-- GOL.STEP (42_game_of_life.md R166). -/
def execGolStep (s : State) : Outcome :=
  command s fun s =>
    withGrid s fun old =>
      let new := nextGrid s.cfg old
      let ch := gridChanged old new
      respond (s.setGrid new ch) (bitWord ch)

/-- GOL.READ (42_game_of_life.md R170). -/
def execGolRead (x y : Half) (s : State) : Outcome :=
  command s fun s =>
    if s.gridValid then
      match s.readCell (cellNumber s.cfg (coord x) (coord y)) with
      | some b => respond s (bitWord b)
      | none => .fault .gridDefect
    else raiseError s .noGrid

/-- GOL.STATUS (42_game_of_life.md R176): legal with GRID_VALID = 0. -/
def execGolStatus (s : State) : Outcome :=
  command s fun s =>
    if s.gridValid && s.cells.isNone then .fault .gridDefect
    else respond s (statusWord s.gridValid s.allDead s.changed)

end Sys2Proof.Machine
end

