-- ==== Sys2Proof/Machine/Rotary.lean ====
section
/-! DEFINITION. RQD, the rotary-quadrature decoder with debouncer (40_rotary_decoder.md). -/

namespace Sys2Proof.Machine

/-- The direction of a click. -/
inductive Turn where
  | cw
  | ccw
  deriving DecidableEq, Repr

/-- p = A, B (A is bit 1), both inverted when P_QUAD_INVERT = 1 (40_rotary_decoder.md R101). -/
def phaseOf (c : Config) (a b : Bool) : BitVec 2 :=
  (BitVec.ofBool a ++ BitVec.ofBool b) ^^^ (if c.quadInvert then 0b11 else 0b00)

/-- The next phase clockwise: 00, 10, 11, 01, 00 (40_rotary_decoder.md R101). -/
def succCw (p : BitVec 2) : BitVec 2 :=
  if p = 0b00 then 0b10 else if p = 0b10 then 0b11 else if p = 0b11 then 0b01 else 0b00

/-- The next phase counter-clockwise: 00, 01, 11, 10, 00 (40_rotary_decoder.md R101). -/
def succCcw (p : BitVec 2) : BitVec 2 :=
  if p = 0b00 then 0b01 else if p = 0b01 then 0b11 else if p = 0b11 then 0b10 else 0b00

/-- The transition from RQD[k].phase to another phase p: both lines changed sets lost and clears acc (40_rotary_decoder.md R102);
one line changed counts a quarter-step unless lost (R103). -/
def transition (p : BitVec 2) (r : Rqd) : Rqd :=
  let r' :=
    if p ^^^ r.phase = 0b11 then { r with lost := true, acc := 0 }
    else if r.lost then r
    else if p = succCw r.phase then { r with acc := r.acc + 1 }
    else { r with acc := r.acc - 1 }
  { r' with phase := p }

/-- The click, if any, of an arrival at the detent phase (40_rotary_decoder.md R104). -/
def detentClick (r : Rqd) : Option Turn :=
  if r.lost then none
  else if r.acc.toInt = 4 then some .cw
  else if r.acc.toInt = -4 then some .ccw
  else none

/-- The position after a click, with n = P_NOTCH[k] (40_rotary_decoder.md R105). -/
def clickPos (n : Nat) (t : Turn) (pos : BitVec 8) : BitVec 8 :=
  match t with
  | .cw => if pos.toNat = n then 0 else pos + 1
  | .ccw => if pos = 0 then BitVec.ofNat 8 n else pos - 1

/-- The event kind of a click (40_rotary_decoder.md R105). -/
def clickKind : Turn → EvKind
  | .cw => .rotatedClockwise
  | .ccw => .rotatedCounterClockwise

/-- The detent's work (40_rotary_decoder.md R104, R105): a click moves the position and emits it as updated; acc and lost are cleared. -/
def arriveAtDetent (c : Config) (k : Knob) (r : Rqd) : Rqd × List Half :=
  match detentClick r with
  | none => ({ r with acc := 0, lost := false }, [])
  | some t =>
    let pos := clickPos (c.notch k) t r.pos
    ({ r with acc := 0, lost := false, pos := pos }, [evword k.src (clickKind t) pos])

/-- The quadrature part of a sample with phase p (40_rotary_decoder.md R100), with the words it emits. -/
def quadStep (c : Config) (k : Knob) (p : BitVec 2) (r : Rqd) : Rqd × List Half :=
  if p = r.phase then (r, [])
  else if p = 0b00 then arriveAtDetent c k (transition p r)
  else (transition p r, [])

/-- The event kind of a change of pressed-state (40_rotary_decoder.md R106, R107). -/
def buttonKind (m : BtnMode) (pressed : Bool) : EvKind :=
  match m with
  | .paired => if pressed then .buttonDown else .buttonUp
  | .single => .button

/-- The button part of a sample with level c of BTN (40_rotary_decoder.md R106, R107), with the words it emits. -/
def buttonStep (c : Config) (k : Knob) (level : Bool) (r : Rqd) : Rqd × List Half :=
  if pressed c k level = r.btn then (r, [])
  else ({ r with btn := pressed c k level }, [evword k.src (buttonKind c.btnMode (pressed c k level)) 0])

/-- A whole sample: the quadrature part, then the button part, so a rotation event precedes a button event
(40_rotary_decoder.md R108). -/
def sampleRqd (c : Config) (k : Knob) (a b level : Bool) (r : Rqd) : Rqd × List Half :=
  let q := quadStep c k (phaseOf c a b) r
  let t := buttonStep c k level q.1
  (t.1, q.2 ++ t.2)

/-- RQD.SAMPLE (40_rotary_decoder.md R100): writes RQD[k], appends to EV[k], and touches nothing else. An instance outside its
invariant is a model defect, which stops (60_exceptions.md R206; log entry 8). -/
def execRqdSample (k : Knob) (a b c : Bool) (s : State) : Outcome :=
  guardConfig s fun s =>
    if (s.rqd k).ok (s.cfg.notch k) then
      let t := sampleRqd s.cfg k a b c (s.rqd k)
      .next ((s.setRqd k t.1).emitEv k t.2)
    else .fault .rqdDefect

end Sys2Proof.Machine
end

