-- ==== Sys2Proof/Machine/Dispatch.lean ====
section
/-! DEFINITION. One arm per constructor of Instr, each one direct call of its meaning. -/

namespace Sys2Proof.Machine

def exec (i : Instr) (s : State) : Host.Outcome State Fault Refusal :=
  match i with
  | .nop => Sys2Proof.Machine.execNop s
  | .pixWrite idx value => Sys2Proof.Machine.execPixWrite idx value s
  | .ledEncode count => Sys2Proof.Machine.execLedEncode count s
  | .ledTx => Sys2Proof.Machine.execLedTx s
  | .golReset seed => Sys2Proof.Machine.execGolReset seed s
  | .golStep => Sys2Proof.Machine.execGolStep s
  | .golRead x y => Sys2Proof.Machine.execGolRead x y s
  | .golStatus => Sys2Proof.Machine.execGolStatus s
  | .rqdSample k a b c => Sys2Proof.Machine.execRqdSample k a b c s
  | .reserved cw => Sys2Proof.Machine.execReserved cw s

end Sys2Proof.Machine
end

