-- ==== Sys2Proof/Machine/Step.lean ====
section
/-! DEFINITION. One step of the block: the next input that an agent can take is decoded and performed whole (00_scope.md R18,
60_exceptions.md R215). -/

namespace Sys2Proof.Machine

/-- One step. The reset event has no instruction, and with no input the block waits. -/
def step (s : State) : Host.Outcome State Fault Refusal :=
  match fetch s with
  | none => idleStep s
  | some (i, rest) =>
    match decode i with
    | some instr => exec instr (s.setInputs rest)
    | none => resetEvent (s.setInputs rest)

/-- s with the input that has the bits w of an opcode-table row (log entries 3 and 11) presented first. -/
def State.withFetchWord (s : State) (nbits w : Nat) : State :=
  match inputOfTableWord nbits w with
  | some i => s.setInputs (i :: s.inputs)
  | none => s

end Sys2Proof.Machine
end

