-- ==== Sys2Proof/Machine/Pseudo.lean ====
section
/-! DEFINITION. The pseudo-operations and their expansions (30_encoding.md R85). They are no encodings of their own. -/

namespace Sys2Proof.Machine

/-- The pseudo-operations (30_encoding.md R85). -/
inductive Pseudo where
  | ledShow (count : Word)
  | pixClear
  | rqdCw (k : Knob) (btn : Bool)
  | rqdCcw (k : Knob) (btn : Bool)
  deriving DecidableEq, Repr

/-- LED.SHOW: LED.ENCODE count, then LED.TX. -/
def expandLedShow (count : Word) : List Instr :=
  [.ledEncode count, .ledTx]

/-- PIX.CLEAR: PIX.WRITE i, 0 for every i below P_N_LEDS in increasing order; there is none when an index does not fit IDX
(log entry 17). -/
def expandPixClear (c : Config) : Option (List Instr) :=
  if c.nLeds ≤ 65536 then some ((List.range c.nLeds).map fun i => .pixWrite (BitVec.ofNat 16 i) 0) else none

/-- RQD.CW k, btn: one clockwise click from the detent phase, with P_QUAD_INVERT = 0. -/
def expandRqdCw (k : Knob) (btn : Bool) : List Instr :=
  [.rqdSample k true false btn, .rqdSample k true true btn, .rqdSample k false true btn, .rqdSample k false false btn]

/-- RQD.CCW k, btn: one counter-clockwise click from the detent phase, with P_QUAD_INVERT = 0. -/
def expandRqdCcw (k : Knob) (btn : Bool) : List Instr :=
  [.rqdSample k false true btn, .rqdSample k true true btn, .rqdSample k true false btn, .rqdSample k false false btn]

/-- The expansion of a pseudo-operation on a block with the parameters c. -/
def expandPseudo (c : Config) : Pseudo → Option (List Instr)
  | .ledShow count => some (expandLedShow count)
  | .pixClear => expandPixClear c
  | .rqdCw k btn => some (expandRqdCw k btn)
  | .rqdCcw k btn => some (expandRqdCcw k btn)

end Sys2Proof.Machine
end

