-- ==== Sys2Proof/Safety.lean ====
section
/-! DEFINITION. What holds in every state the block reaches, and what a run shows (10_state.md R43 to R46, 60_exceptions.md R222). -/

namespace Sys2Proof.Machine

/-- The command port accepts the next command: the configuration is one a model may run, and CMDSTATE = IDLE (60_exceptions.md R216). -/
def State.Ready (s : State) : Prop := s.cfg.valid = true ∧ s.cmdState = .idle

/-- The block built for another serial rate (41_led_encoder.md R148). -/
def State.withSerialRate (s : State) (r : Option Nat) : State :=
  { s with cfg := { s.cfg with serialRate := r } }

/-- The operation is a command of the command port, not a pin sample (00_scope.md R3). -/
def isCommand : Instr → Bool
  | .rqdSample _ _ _ _ => false
  | _ => true

/-- The operation code of a command's row (30_encoding.md R73); the reserved row has none of its own, a pin sample none at all. -/
def opcodeOf : Instr → Option (BitVec 4)
  | .nop => some 0x0
  | .pixWrite _ _ => some 0x1
  | .ledEncode _ => some 0x2
  | .ledTx => some 0x3
  | .golReset _ => some 0x4
  | .golStep => some 0x5
  | .golRead _ _ => some 0x6
  | .golStatus => some 0x7
  | .rqdSample _ _ _ _ => none
  | .reserved _ => none

/-- The cell at integer coordinates is live, each coordinate reduced by its Euclidean remainder (42_game_of_life.md R160). -/
def State.liveAt (s : State) (x y : Int) : Bool :=
  s.readCell ((y % s.cfg.golH).toNat * s.cfg.golW + (x % s.cfg.golW).toNat) = some true

/-- The 8 offsets (dx, dy) in -1, 0, 1 by -1, 0, 1 without (0, 0), as 42_game_of_life.md R166 writes them. -/
def lifeOffsets : List (Int × Int) :=
  (([-1, 0, 1] : List Int).flatMap fun dx => ([-1, 0, 1] : List Int).map fun dy => (dx, dy)).filter (· ≠ (0, 0))

/-- Operations one after another, stopping at the first that stops. -/
def execAll : List Instr → State → Outcome
  | [], s => .next s
  | i :: is, s =>
    match exec i s with
    | .next s' => execAll is s'
    | .fault r => .fault r
    | .refused r => .refused r

/-- A word of EV[k] as the rules allow it (30_encoding.md R76, R77): no reserved kind, RSV clear, SRC the tag of k, a position in
[0, P_NOTCH[k]] for a rotation and 0 for a button event, and only button kinds of P_BTN_MODE. -/
def eventOk (c : Config) (k : Knob) (w : Half) : Bool :=
  match readEvent w with
  | none => false
  | some (k', e, pos) =>
    k' = k && pos.toNat ≤ c.notch k &&
      match e with
      | .rotatedClockwise | .rotatedCounterClockwise => true
      | .buttonDown | .buttonUp => pos = 0 && c.btnMode = .paired
      | .button => pos = 0 && c.btnMode = .single

/-- The index j of a frame lies in its leading or its trailing reset gap (41_led_encoder.md R139). -/
def inGap (c : Config) (j : Nat) : Bool :=
  j < c.resetBytes || c.resetBytes + bytesPerLed * c.nLeds ≤ j

/-- The byte b may stand at the index j of a frame: a zero byte in a gap, a template in a slot (41_led_encoder.md R131, R134, R139). -/
def frameByteOk (c : Config) (j : Nat) (b : Byte) : Bool :=
  if inGap c j then b = 0 else (untemplate b).isSome

/-- The invariant of the machine: every state reached from reset has it. -/
structure State.Inv (s : State) : Prop where
  /-- The configuration is one a model may run (00_scope.md R12). -/
  cfg : s.cfg.valid = true
  /-- 10_state.md R43, R44, R46. -/
  knob : ∀ k, (s.rqd k).ok (s.cfg.notch k) = true
  /-- EV[k] holds only words the rules emit (30_encoding.md R76, R77). -/
  events : ∀ k, (s.ev k).all (eventOk s.cfg k) = true
  /-- PIX is in canonical form. -/
  pixWf : Memory.wf pixBlank s.pix = true
  /-- PIX has no index outside [0, P_N_LEDS) (20_memory.md R50). -/
  pixBound : ∀ e ∈ s.pix, e.1 < s.cfg.nLeds
  /-- FB holds FRAME_LEN bytes when FB_VALID = 1 (10_state.md R29, R45), and nothing known before. -/
  fbKeys : s.fb.map Prod.fst = if s.fbValid then List.range s.cfg.frameLen else []
  /-- FB holds zero bytes in the gaps and templates in the slots (41_led_encoder.md R134). -/
  fbBytes : ∀ e ∈ s.fb, frameByteOk s.cfg e.1 e.2 = true
  /-- TX holds whole frames (20_memory.md R58). -/
  txWhole : s.tx.length % s.cfg.frameLen = 0
  /-- Each frame of TX holds zero bytes in the gaps and templates in the slots (41_led_encoder.md R134). -/
  txBytes : ∀ e ∈ s.tx.zipIdx, frameByteOk s.cfg (e.2 % s.cfg.frameLen) e.1 = true
  /-- GRID holds every cell when GRID_VALID = 1 (10_state.md R31, R45), and nothing known before. -/
  gridKeys : s.grid.map Prod.fst = if s.gridValid then List.range s.cfg.cells else []
  /-- CHANGED is 0 before the first GOL.RESET (10_state.md R33). -/
  changedValid : s.gridValid = false → s.changed = false
  /-- ERR holds a code that is written (60_exceptions.md R201). -/
  errCode : (errOfBits s.err).isSome = true
  /-- RESULT is 0 on error (10_state.md R36). -/
  errResult : s.err ≠ 0 → s.result = 0

/-! ## The observation of a run (60_exceptions.md R222) -/

/-- The response (ERR, RESULT) of a step that completes a command (60_exceptions.md R216); a command that hangs the port gives none. -/
def stepResponse (s : State) : Option (BitVec 4 × Word) :=
  match fetch s, step s with
  | some (.cmd _ _, _), .next s' => if s'.cmdState = .idle then some (s'.err, s'.result) else none
  | _, _ => none

/-- The step takes the reset event (70_reset_and_hazards.md R230). -/
def takesReset (s : State) : Bool :=
  match fetch s with
  | some (.reset, _) => true
  | _ => false

/-- The responses of the run after the step from s, where rs are those before it. A reset starts the observation (10_state.md R38), so
a reset within a run drops the responses before it, as it empties the output logs (log entry 19). -/
def nextResponses (s : State) (rs : List (BitVec 4 × Word)) : List (BitVec 4 × Word) :=
  if takesReset s then [] else rs ++ (stepResponse s).toList

/-- The observation of a run (60_exceptions.md R222): the output logs, one response per completed command since the reset, oldest first, and
CMDSTATE. -/
structure Observation where
  evRed : List Half
  evYellow : List Half
  tx : List Byte
  responses : List (BitVec 4 × Word)
  cmdState : CmdState
  deriving DecidableEq, Repr

/-- A run whose command port is HUNG is not a completed run (60_exceptions.md R222). -/
def Observation.completed (o : Observation) : Bool :=
  o.cmdState = .idle

/-- The observation of a run that has come to s with the responses rs and goes on for n steps; none if a step faults or refuses. -/
def observeFrom : Nat → List (BitVec 4 × Word) → State → Option Observation
  | 0, rs, s => some ⟨s.evRed, s.evYellow, s.tx, rs, s.cmdState⟩
  | n + 1, rs, s =>
    match step s with
    | .next s' => observeFrom n (nextResponses s rs) s'
    | _ => none

/-- The observation of n steps from the reset of a block with the parameters c, to which the host presents the inputs l: a run is a
sequence of agent steps from reset (60_exceptions.md R222). Where l holds a reset event the run is the one that begins at the last
reset taken: a reset is no agent step, and starts the observation (log entry 19). -/
def observe (n : Nat) (c : Config) (l : List Input) : Option Observation :=
  observeFrom n [] ((State.resetWith c).setInputs l)

end Sys2Proof.Machine
end

