-- ==== Sys2Proof/Certificates/Slice0/Obligations.lean ====
section
/-! DEFINITION. The statements about the ledboard core that are put to the provers. Each docstring names the rule of spec/ it formalises. -/

open Sys2Proof Sys2Proof.Machine

/-! ## Encoding -/

/-- Decoding what the encoder writes gives the instruction back, for every well-formed instruction and every operand
(30_encoding.md R83, R86). -/
def Obligations.DecodeOfEncodeIsTheInstruction : Prop :=
  ∀ i : Instr, i.wf = true → decode (encode i) = some i

/-- The other direction: every command word comes back from the encoder, with its ARG where the operation uses it, and every pin
pattern comes back (30_encoding.md R72, R75, R83). What decodes is well-formed. -/
def Obligations.EncodeOfDecodeKeepsEveryUsedBit : Prop :=
  (∀ cw arg : Word, (decodeCmd cw arg).wf = true ∧
    ∃ arg', encode (decodeCmd cw arg) = .cmd cw arg' ∧
      (illegalWord cw = false → opcOf cw ∈ [1, 2, 4, 6] → arg' = arg)) ∧
  ∀ p : BitVec 4, encode (decodePin p) = .pin p

/-- 30_encoding.md R83: the decoder's procedure, as which words give which operation. -/
def Obligations.DecoderFollowsTheProcedure : Prop :=
  (∀ cw arg : Word, 8 ≤ cw.toNat % 16 → decodeCmd cw arg = .reserved cw) ∧
  (∀ cw arg : Word, cw.toNat / 16 % 4096 ≠ 0 → decodeCmd cw arg = .reserved cw) ∧
  (∀ cw arg : Word, cw.toNat % 16 ≠ 1 → cw.toNat / 65536 ≠ 0 → decodeCmd cw arg = .reserved cw) ∧
  (∀ arg : Word, decodeCmd 0x0 arg = .nop) ∧
  (∀ (idx : Half) (arg : Word), decodeCmd (idx ++ 0x0001#16) arg = .pixWrite idx arg) ∧
  (∀ arg : Word, decodeCmd 0x2 arg = .ledEncode arg) ∧
  (∀ arg : Word, decodeCmd 0x3 arg = .ledTx) ∧
  (∀ arg : Word, decodeCmd 0x4 arg = .golReset arg) ∧
  (∀ arg : Word, decodeCmd 0x5 arg = .golStep) ∧
  (∀ arg : Word, decodeCmd 0x6 arg = .golRead (arg.extractLsb' 0 16) (arg.extractLsb' 16 16)) ∧
  (∀ arg : Word, decodeCmd 0x7 arg = .golStatus) ∧
  (∀ k c b a : Bool, decodePin (BitVec.ofBool k ++ BitVec.ofBool c ++ BitVec.ofBool b ++ BitVec.ofBool a) =
    .rqdSample (if k then .yellow else .red) a b c)

/-- 30_encoding.md R74: exactly the illegal words decode to the reserved row, whatever ARG holds, and such a command completes with
error ILLEGAL and changes no other state. A legal word names the one operation of its OPC field, and its ARG is ignored or wholly
used. -/
def Obligations.ExactlyTheIllegalWordsAreIllegal : Prop :=
  ∀ cw arg : Word,
    ((∃ w, decodeCmd cw arg = .reserved w) ↔
      (8 ≤ cw.toNat % 16 ∨ cw.toNat / 16 % 4096 ≠ 0 ∨ (cw.toNat % 16 ≠ 1 ∧ cw.toNat / 65536 ≠ 0))) ∧
    (∀ s : State, s.Ready → illegalWord cw = true → exec (decodeCmd cw arg) s = .next { s with err := 1, result := 0 }) ∧
    (illegalWord cw = false → opcodeOf (decodeCmd cw arg) = some (opcOf cw) ∧
      ((∀ arg', decodeCmd cw arg' = decodeCmd cw arg) ∨ ∀ arg', decodeCmd cw arg' = decodeCmd cw arg → arg' = arg))

/-- Some words written out from 30_encoding.md R71 to R75 and 95_test_vectors.md L2.C, L2.L6, L2.G4 and L3. That PIN stands in bits 3:0
and CW in bits 31:0 with ARG in bits 63:32 of a table word is the model's reading of the table (log entry 11), no rule of the spec. -/
def Obligations.SampleWordsDecode : Prop :=
  decodeTableWord 64 0x1234567800000000 = some .nop ∧
  decodeTableWord 64 0x1122334400050001 = some (.pixWrite 5 0x11223344) ∧
  decodeTableWord 64 0xFFFFFFFF008F0001 = some (.pixWrite 143 0xFFFFFFFF) ∧
  decodeTableWord 64 0x0000009100000002 = some (.ledEncode 145) ∧
  decodeTableWord 64 0x0000000000000003 = some .ledTx ∧
  decodeTableWord 64 0xDEADBEEF00000004 = some (.golReset 0xDEADBEEF) ∧
  decodeTableWord 64 0x0000000000000005 = some .golStep ∧
  decodeTableWord 64 0xFFFE000000000006 = some (.golRead 0 0xFFFE) ∧
  decodeTableWord 64 0x0000000000000007 = some .golStatus ∧
  decodeTableWord 64 0x0000000000050005 = some (.reserved 0x00050005) ∧
  decodeTableWord 8 0b1010 = some (.rqdSample .yellow false true false) ∧
  decodeTableWord 8 0b0101 = some (.rqdSample .red true false true)

/-- 30_encoding.md R77: the fields of an event word, its examples, and the words a consumer must refuse. -/
def Obligations.EventWordsReadBack : Prop :=
  (∀ (k : Knob) (e : EvKind) (pos : BitVec 8), readEvent (evword k.src e pos) = some (k, e, pos)) ∧
  (∀ w : Half, (w.toNat / 16 % 16 ≠ 0 ∨ 5 ≤ w.toNat % 8) → readEvent w = none) ∧
  (∀ (k : Knob) (e : EvKind) (pos : BitVec 8),
    (evword k.src e pos).toNat = pos.toNat * 256 + k.src.toNat * 8 + (kindBits e).toNat) ∧
  evword Knob.red.src .rotatedClockwise 1 = 0x0100 ∧ evword Knob.yellow.src .rotatedCounterClockwise 18 = 0x1209 ∧
  evword Knob.red.src .buttonDown 0 = 0x0002 ∧ evword Knob.yellow.src .buttonUp 0 = 0x000B

/-! ## NOP and the reserved row -/

/-- 43_control.md R190. -/
def Obligations.NopAnswersOk : Prop :=
  (∀ arg : Word, decodeCmd 0 arg = .nop) ∧
  ∀ s : State, s.Ready →
    exec .nop s = .next { s with err := 0, result := 0 } ∧
    ∀ cw arg : Word, opcOf cw = 0 → cw.toNat / 16 ≠ 0 → exec (decodeCmd cw arg) s = .next { s with err := 1, result := 0 }

/-- 43_control.md R191. -/
def Obligations.ReservedAnswersIllegal : Prop :=
  ∀ (s : State) (cw arg : Word), s.Ready →
    exec (.reserved cw) s = .next { s with err := 1, result := 0 } ∧
    (8 ≤ cw.toNat % 16 ∨ illegalWord cw = true → exec (decodeCmd cw arg) s = .next { s with err := 1, result := 0 })

/-! ## LEDENC -/

/-- 41_led_encoder.md R130. The canonical form of PIX is part of the invariant. -/
def Obligations.PixWriteStoresOneWord : Prop :=
  (∀ (idx : Half) (v : Word), decodeCmd (idx ++ 0x0001#16) v = .pixWrite idx v) ∧
  ∀ s : State, s.Ready → Memory.wf pixBlank s.pix = true →
    (∀ (idx : Half) (v : Word), idx.toNat < s.cfg.nLeds →
      ∃ t, exec (.pixWrite idx v) s = .next t ∧
        (∀ j, t.readPix j = if j = idx.toNat then v else s.readPix j) ∧
        t = { s with pix := t.pix, err := 0, result := 0 }) ∧
    (∀ (idx : Half) (v : Word), s.cfg.nLeds ≤ idx.toNat →
      exec (.pixWrite idx v) s = .next { s with err := 2, result := 0 }) ∧
    ∀ cw arg : Word, opcOf cw = 1 → rsvOf cw ≠ 0 → exec (decodeCmd cw arg) s = .next { s with err := 1, result := 0 }

/-- 41_led_encoder.md R140 and R141: the pixels are encoded in logical order, each into its remapped slot, the gaps are zero, and a
count above P_N_LEDS changes nothing. -/
def Obligations.LedEncodeWritesTheFrame : Prop :=
  (∀ count : Word, decodeCmd 0x00000002 count = .ledEncode count) ∧
  ∀ s : State, s.Ready →
    (∀ count : Word, count.toNat ≤ s.cfg.nLeds →
      ∃ t, exec (.ledEncode count) s = .next t ∧
        t = { s with fb := t.fb, fbValid := true, err := 0, result := 0 } ∧
        (∀ j < s.cfg.resetBytes, t.readFb j = some 0x00) ∧
        (∀ i < s.cfg.nLeds, ∀ u < 16,
          t.readFb (s.cfg.resetBytes + 16 * remap s.cfg.cols i + u) =
            (encPx (if i < count.toNat then s.readPix i else 0))[u]?) ∧
        (∀ j, s.cfg.resetBytes + 16 * s.cfg.nLeds ≤ j → j < s.cfg.frameLen → t.readFb j = some 0x00) ∧
        ∀ j < s.cfg.frameLen, (t.readFb j).isSome = true) ∧
    (∀ count : Word, s.cfg.nLeds < count.toNat →
      exec (.ledEncode count) s = .next { s with err := 3, result := 0 }) ∧
    ∀ cw arg : Word, opcOf cw = 2 → cw ≠ 0x00000002 →
      exec (decodeCmd cw arg) s = .next { s with err := 1, result := 0 }

/-- 41_led_encoder.md R139 (with R138): FB by physical slot after LED.ENCODE, the length of the frame, and the channels within a slot. -/
def Obligations.FrameIsLaidOutBySlot : Prop :=
  (∀ px : Word, (encPx px).take 4 = encCh (greenOf px) ∧ ((encPx px).drop 4).take 4 = encCh (redOf px) ∧
    ((encPx px).drop 8).take 4 = encCh (blueOf px) ∧ (encPx px).drop 12 = encCh (whiteOf px)) ∧
  ∀ (s : State) (count : Word), s.Ready → count.toNat ≤ s.cfg.nLeds →
    s.cfg.frameLen = 2 * s.cfg.resetBytes + 16 * s.cfg.nLeds ∧
    ∃ t, exec (.ledEncode count) s = .next t ∧
      (∀ j < s.cfg.resetBytes, t.readFb j = some 0x00) ∧
      (∀ o < s.cfg.nLeds, ∀ u < 16,
        t.readFb (s.cfg.resetBytes + 16 * o + u) =
          (encPx (if unremap s.cfg.cols o < count.toNat then s.readPix (unremap s.cfg.cols o) else 0))[u]?) ∧
      (∀ j, s.cfg.resetBytes + 16 * s.cfg.nLeds ≤ j → j < s.cfg.frameLen → t.readFb j = some 0x00) ∧
      ∀ j, s.cfg.frameLen ≤ j → t.readFb j = none

/-- 41_led_encoder.md R142. -/
def Obligations.CountZeroEncodesEverySlotOff : Prop :=
  ∀ s : State, s.Ready →
    ∃ t, exec (.ledEncode 0) s = .next t ∧
      t.frame = some (List.replicate s.cfg.resetBytes 0x00 ++ List.replicate (16 * s.cfg.nLeds) 0x88
        ++ List.replicate s.cfg.resetBytes 0x00)

/-- 41_led_encoder.md R146. -/
def Obligations.LedTxSendsTheFrame : Prop :=
  (∀ arg : Word, decodeCmd 0x00000003 arg = .ledTx) ∧
  (∀ s : State, s.Inv → s.cmdState = .idle → s.fbValid = true →
    ∃ bs : List Byte, bs.length = s.cfg.frameLen ∧ (∀ j < s.cfg.frameLen, s.readFb j = bs[j]?) ∧
      exec .ledTx s = .next { s with tx := s.tx ++ bs, err := 0, result := 0 }) ∧
  ∀ s : State, s.Ready →
    (s.fbValid = false → exec .ledTx s = .next { s with err := 4, result := 0 }) ∧
    ∀ cw arg : Word, opcOf cw = 3 → cw ≠ 0x00000003 →
      exec (decodeCmd cw arg) s = .next { s with err := 1, result := 0 }

/-- 41_led_encoder.md R131: the four templates, bit 1 of g giving the high nibble and bit 0 the low one; and, sent most significant bit
first (20_memory.md R53), both nibbles begin with a high pulse. -/
def Obligations.TemplatesAreTheTable : Prop :=
  template 0b00 = 0x88 ∧ template 0b01 = 0x8C ∧ template 0b10 = 0xC8 ∧ template 0b11 = 0xCC ∧
  ∀ g : BitVec 2,
    (template g).toNat = (if g.getLsbD 1 then 0xC else 0x8) * 16 + (if g.getLsbD 0 then 0xC else 0x8) ∧
    (serialBits (template g))[0]? = some true ∧ (serialBits (template g))[4]? = some true

/-- 41_led_encoder.md R143. -/
def Obligations.ChannelEncodingIsInjective : Prop :=
  (∀ v : Byte, decCh (encCh v) = some v.toNat) ∧ ∀ v w : Byte, encCh v = encCh w → v = w

/-- 41_led_encoder.md R133: the 16 bytes of a pixel decode to bits 23:16, 31:24, 15:8 and 7:0, in this order. -/
def Obligations.WireOrderIsGreenRedBlueWhite : Prop :=
  ∀ px : Word, (encPx px).length = 16 ∧
    decCh ((encPx px).take 4) = some (px.toNat / 2 ^ 16 % 256) ∧
    decCh (((encPx px).drop 4).take 4) = some (px.toNat / 2 ^ 24) ∧
    decCh (((encPx px).drop 8).take 4) = some (px.toNat / 2 ^ 8 % 256) ∧
    decCh ((encPx px).drop 12) = some (px.toNat % 256)

/-- 41_led_encoder.md R137. -/
def Obligations.RemapIsABijection : Prop :=
  (∀ cols : Nat,
    (∀ i < cols * cols, remap cols i < cols * cols ∧ unremap cols (remap cols i) = i) ∧
    ∀ o < cols * cols, unremap cols o < cols * cols ∧ remap cols (unremap cols o) = o) ∧
  (List.range 9).map (remap 3) = [0, 5, 6, 1, 4, 7, 2, 3, 8]

/-- 41_led_encoder.md R134: the off pixel is sixteen bytes 0x88; of what LED.TX sends, after an LED.ENCODE and in every state with
the invariant, exactly the gaps are zero; and so of every byte that stands on TX, which holds whole frames. -/
def Obligations.ZeroBytesOnlyInTheGaps : Prop :=
  encPx 0x00000000 = List.replicate 16 0x88 ∧
  (∀ (s : State) (count : Word), s.Ready → count.toNat ≤ s.cfg.nLeds →
    ∃ t u bs, exec (.ledEncode count) s = .next t ∧ exec .ledTx t = .next u ∧ u.tx = s.tx ++ bs ∧
      bs.length = s.cfg.frameLen ∧
      ∀ j < s.cfg.frameLen, bs[j]? = some 0x00 ↔ (j < s.cfg.resetBytes ∨ s.cfg.resetBytes + 16 * s.cfg.nLeds ≤ j)) ∧
  (∀ s : State, s.Inv → s.cmdState = .idle → s.fbValid = true →
    ∃ bs : List Byte, exec .ledTx s = .next { s with tx := s.tx ++ bs, err := 0, result := 0 } ∧ bs.length = s.cfg.frameLen ∧
      ∀ j < s.cfg.frameLen, bs[j]? = some 0x00 ↔ (j < s.cfg.resetBytes ∨ s.cfg.resetBytes + 16 * s.cfg.nLeds ≤ j)) ∧
  ∀ s : State, s.Inv → s.tx.length % s.cfg.frameLen = 0 ∧
    ∀ j < s.tx.length, s.tx[j]? = some 0x00 ↔
      (j % s.cfg.frameLen < s.cfg.resetBytes ∨ s.cfg.resetBytes + 16 * s.cfg.nLeds ≤ j % s.cfg.frameLen)

/-- 70_reset_and_hazards.md R242: a write to PIX does not reach TX without an LED.ENCODE. -/
def Obligations.PixWriteDoesNotReachTheOldFrame : Prop :=
  ∀ (s t u : State) (idx : Half) (v : Word), exec (.pixWrite idx v) s = .next t → exec .ledTx s = .next u →
    ∃ u', exec .ledTx t = .next u' ∧ u'.tx = u.tx ∧ u'.err = u.err

/-- The pseudo-operation PIX.CLEAR (30_encoding.md R85) completes and leaves every word of PIX 0. -/
def Obligations.PixClearLeavesEveryPixelOff : Prop :=
  ∀ (s : State) (is : List Instr), s.Inv → s.cmdState = .idle → expandPseudo s.cfg .pixClear = some is →
    is.length = s.cfg.nLeds ∧
    ∃ t, execAll is s = .next t ∧ (∀ j, t.readPix j = 0) ∧ t.fb = s.fb ∧ t.err = 0

/-! ## GOL -/

/-- 42_game_of_life.md R161: the warm-up loop ends at the first product of the seed by a power of 13 that is not below 128, and each cell,
in row-major order, takes bit 0 of the working value. -/
def Obligations.GolResetSeedsTheGrid : Prop :=
  (∀ seed : Word, decodeCmd 0x00000004 seed = .golReset seed) ∧
  ∀ s : State, s.Ready →
    (∀ seed : Word, seed ≠ 0 →
      ∃ (t : State) (n : Nat) (v : Nat → Word), exec (.golReset seed) s = .next t ∧
        t = { s with grid := t.grid, gridValid := true, changed := false, err := 0, result := 0 } ∧
        v 0 = seed * 13 ^ n ∧ 128 ≤ (v 0).toNat ∧ (∀ m < n, (seed * 13 ^ m).toNat < 128) ∧
        (∀ c, v (c + 1) = if (v c >>> 1).toNat < 128 then (v c >>> 1) * 13 else v c >>> 1) ∧
        ∀ y < s.cfg.golH, ∀ x < s.cfg.golW,
          t.readCell (y * s.cfg.golW + x) = some ((v (y * s.cfg.golW + x)).getLsbD 0)) ∧
    exec (.golReset 0) s = .next { s with cmdState := .hung } ∧
    ∀ cw arg : Word, opcOf cw = 4 → cw ≠ 0x00000004 →
      exec (decodeCmd cw arg) s = .next { s with err := 1, result := 0 }

/-- 42_game_of_life.md R163: with seed 0 the warm-up loop never ends, the port is HUNG with everything else kept, no command is
accepted then until a reset, and the decoders are not affected. -/
def Obligations.SeedZeroHangsThePort : Prop :=
  (∀ n, warmUp n 0 = 0) ∧
  ∀ s : State, s.Ready →
    exec (.golReset 0) s = .next { s with cmdState := .hung } ∧
    (∀ (i : Instr) (t : State), isCommand i = true → exec i { s with cmdState := .hung } ≠ .next t) ∧
    step { s with cmdState := .hung, inputs := [.reset] } = .next (State.resetWith s.cfg) ∧
    ∀ (k : Knob) (a b c : Bool) (t : State), exec (.rqdSample k a b c) s = .next t →
      exec (.rqdSample k a b c) { s with cmdState := .hung } = .next { t with cmdState := .hung }

/-- 42_game_of_life.md R165: (a) and (b) of the working value, (c) no multiplication wraps, (d) the grid depends on the seed, W and H
alone, (e) an all-dead grid. -/
def Obligations.WorkingValueStaysAbove128 : Prop :=
  (∀ (seed : Word) (c : Nat), seed ≠ 0 →
    128 ≤ (nextWorking^[c] (warmUp warmUpRounds seed)).toNat ∧
    64 ≤ (nextWorking^[c] (warmUp warmUpRounds seed) >>> 1).toNat) ∧
  (∀ v : Word, 64 ≤ v.toNat → v.toNat < 128 → 832 ≤ (times13 v).toNat) ∧
  (∀ v : Word, v.toNat < 128 → (times13 v).toNat = v.toNat * 13) ∧
  (∀ (s s' t t' : State) (seed : Word), s.cfg.golW = s'.cfg.golW → s.cfg.golH = s'.cfg.golH → seed ≠ 0 →
    exec (.golReset seed) s = .next t → exec (.golReset seed) s' = .next t' → t.grid = t'.grid) ∧
  (∀ c < 9, (nextWorking^[c] (warmUp warmUpRounds 0x80000000)).toNat = 2 ^ (31 - c)) ∧
  ∀ s : State, s.Ready → s.cfg.golW = 3 → s.cfg.golH = 3 →
    ∃ t, exec (.golReset 0x80000000) s = .next t ∧ (∀ j < 9, t.readCell j = some false) ∧ t.allDead = true

/-- 42_game_of_life.md R166 to R169 and R171: one generation from the grid as it was, each position reduced by R160, and the changed
flag. -/
def Obligations.GolStepIsOneGeneration : Prop :=
  (∀ arg : Word, decodeCmd 0x00000005 arg = .golStep) ∧
  (∀ s : State, s.Inv → s.cmdState = .idle → s.gridValid = true →
    ∃ t, exec .golStep s = .next t ∧
      t = { s with grid := t.grid, changed := t.changed, err := 0, result := if t.changed then 1 else 0 } ∧
      (∀ y < s.cfg.golH, ∀ x < s.cfg.golW,
        t.readCell (y * s.cfg.golW + x) =
          some (if s.liveAt x y
            then decide (lifeOffsets.countP (fun d => s.liveAt (x + d.1) (y + d.2)) = 2 ∨
              lifeOffsets.countP (fun d => s.liveAt (x + d.1) (y + d.2)) = 3)
            else decide (lifeOffsets.countP (fun d => s.liveAt (x + d.1) (y + d.2)) = 3))) ∧
      (t.changed = true ↔ ∃ y < s.cfg.golH, ∃ x < s.cfg.golW,
        t.readCell (y * s.cfg.golW + x) ≠ s.readCell (y * s.cfg.golW + x))) ∧
  ∀ s : State, s.Ready →
    (s.gridValid = false → exec .golStep s = .next { s with err := 5, result := 0 }) ∧
    ∀ cw arg : Word, opcOf cw = 5 → cw ≠ 0x00000005 →
      exec (decodeCmd cw arg) s = .next { s with err := 1, result := 0 }

/-- 42_game_of_life.md R170 (with R160 and 30_encoding.md R79). -/
def Obligations.GolReadReadsOneCell : Prop :=
  (∀ arg : Word, decodeCmd 0x00000006 arg = .golRead (arg.extractLsb' 0 16) (arg.extractLsb' 16 16)) ∧
  (∀ (s : State) (x y : Half), s.Inv → s.cmdState = .idle → s.gridValid = true →
    ∃ b, s.readCell ((y.toInt % s.cfg.golH).toNat * s.cfg.golW + (x.toInt % s.cfg.golW).toNat) = some b ∧
      exec (.golRead x y) s = .next { s with err := 0, result := if b then 1 else 0 }) ∧
  ∀ s : State, s.Ready →
    (∀ x y : Half, s.gridValid = false → exec (.golRead x y) s = .next { s with err := 5, result := 0 }) ∧
    ∀ cw arg : Word, opcOf cw = 6 → cw ≠ 0x00000006 →
      exec (decodeCmd cw arg) s = .next { s with err := 1, result := 0 }

/-- 42_game_of_life.md R176 (with 10_state.md R34). -/
def Obligations.GolStatusReportsTheFlags : Prop :=
  (∀ arg : Word, decodeCmd 0x00000007 arg = .golStatus) ∧
  (∀ s : State, s.Inv → s.cmdState = .idle →
    ∃ w : Word, exec .golStatus s = .next { s with err := 0, result := w } ∧
      w.getLsbD 0 = s.changed ∧
      (w.getLsbD 1 = true ↔ s.gridValid = true ∧
        ∀ y < s.cfg.golH, ∀ x < s.cfg.golW, s.readCell (y * s.cfg.golW + x) = some false) ∧
      w.getLsbD 2 = s.gridValid ∧
      (∀ b, 3 ≤ b → w.getLsbD b = false) ∧
      (s.gridValid = false → w = 0)) ∧
  ∀ s : State, s.Ready → ∀ cw arg : Word, opcOf cw = 7 → cw ≠ 0x00000007 →
    exec (decodeCmd cw arg) s = .next { s with err := 1, result := 0 }

/-- 42_game_of_life.md R172: on a 1 by 1 grid a live cell has n = 8 and dies and a dead cell stays dead; on a 5 by 1 grid the cell 0 of
`.###.` has n = 3 and is born; the 8 positions are counted separately. -/
def Obligations.SmallGridsCountEachPosition : Prop :=
  (∀ s : State, s.Inv → s.cmdState = .idle → s.gridValid = true → s.cfg.golW = 1 → s.cfg.golH = 1 →
    (∀ x y : Int, lifeOffsets.countP (fun d => s.liveAt (x + d.1) (y + d.2)) = if s.readCell 0 = some true then 8 else 0) ∧
    ∃ t, exec .golStep s = .next t ∧ t.readCell 0 = some false) ∧
  ∀ s : State, s.Inv → s.cmdState = .idle → s.gridValid = true → s.cfg.golW = 5 → s.cfg.golH = 1 →
    s.cells = some [false, true, true, true, false] →
    lifeOffsets.countP (fun d => s.liveAt (0 + d.1) (0 + d.2)) = 3 ∧
    ∃ t, exec .golStep s = .next t ∧ t.readCell 0 = some true

/-- 42_game_of_life.md R173: the neighbours the model counts for the cell (0, 0) are the eight cells at columns W-1, 0, 1 and
rows H-1, 0, 1, the cells (W-1, H-1), (W-1, 0) and (0, H-1) among them. -/
def Obligations.CornerCellCountsTheFarEdges : Prop :=
  ∀ (c : Config) (g : List Bool), 2 ≤ c.golW → 2 ≤ c.golH →
    neighbours c g 0 0 =
      ((g.getD ((c.golH - 1) * c.golW + (c.golW - 1)) false).toNat + (g.getD ((c.golH - 1) * c.golW) false).toNat
        + (g.getD ((c.golH - 1) * c.golW + 1) false).toNat)
      + ((g.getD (c.golW - 1) false).toNat + (g.getD 1 false).toNat)
      + ((g.getD (c.golW + (c.golW - 1)) false).toNat + (g.getD c.golW false).toNat + (g.getD (c.golW + 1) false).toNat)

/-! ## RQD -/

/-- 40_rotary_decoder.md R101: the phase a sample leaves is A, B, inverted as configured, and the two orders of the phases. -/
def Obligations.PhaseIsTheTwoLines : Prop :=
  (∀ (s : State) (k : Knob) (a b c : Bool), s.cfg.valid = true → (s.rqd k).ok (s.cfg.notch k) = true →
    ∃ t, exec (.rqdSample k a b c) s = .next t ∧
      (t.rqd k).phase.toNat = (if a != s.cfg.quadInvert then 2 else 0) + (if b != s.cfg.quadInvert then 1 else 0)) ∧
  [0b00, 0b10, 0b11, 0b01].map succCw = [0b10, 0b11, 0b01, 0b00] ∧
  [0b00, 0b10, 0b11, 0b01].map succCcw = [0b01, 0b00, 0b10, 0b11]

/-- 40_rotary_decoder.md R102 and R112: both lines changed. Away from the detent the cycle is lost; onto the detent it starts clean;
in both cases no rotation event is emitted and the position stays. A lost cycle stays lost, counts nothing and emits no rotation event,
until the detent. -/
def Obligations.BothLinesChangedLosesTheCycle : Prop :=
  (∀ (s : State) (k : Knob) (a b c : Bool), s.cfg.valid = true → (s.rqd k).ok (s.cfg.notch k) = true →
    (s.rqd k).lost = true → phaseOf s.cfg a b ≠ 0b00 →
    ∃ t, exec (.rqdSample k a b c) s = .next t ∧ (t.rqd k).lost = true ∧ (t.rqd k).acc = 0 ∧ (t.rqd k).pos = (s.rqd k).pos ∧
      t.ev k = s.ev k ++ (if (c == s.cfg.btnActive k) = (s.rqd k).btn then []
        else [evword k.src (buttonKind s.cfg.btnMode (c == s.cfg.btnActive k)) 0])) ∧
  ∀ (s : State) (k : Knob) (a b c : Bool), s.cfg.valid = true → (s.rqd k).ok (s.cfg.notch k) = true →
    phaseOf s.cfg a b ^^^ (s.rqd k).phase = 0b11 →
    ∃ t, exec (.rqdSample k a b c) s = .next t ∧ (t.rqd k).acc = 0 ∧
      (t.rqd k).lost = decide (phaseOf s.cfg a b ≠ 0b00) ∧
      (t.rqd k).pos = (s.rqd k).pos ∧
      t.ev k = s.ev k ++ (if (c == s.cfg.btnActive k) = (s.rqd k).btn then []
        else [evword k.src (buttonKind s.cfg.btnMode (c == s.cfg.btnActive k)) 0])

/-- 40_rotary_decoder.md R103: one line changed. The count that R104 then looks at is one more or one less, unless the cycle is lost; the
sample leaves it so away from the detent (at the detent R104 clears it), and emits no rotation event there. -/
def Obligations.OneLineChangedCountsAQuarterStep : Prop :=
  (∀ (n : Nat) (r : Rqd) (p : BitVec 2), r.ok n = true → p ≠ r.phase → p ^^^ r.phase ≠ 0b11 →
    (p = succCw r.phase ∨ p = succCcw r.phase) ∧
    (transition p r).acc.toInt =
      (if r.lost then 0 else if p = succCw r.phase then r.acc.toInt + 1 else r.acc.toInt - 1)) ∧
  ∀ (s : State) (k : Knob) (a b c : Bool), s.cfg.valid = true → (s.rqd k).ok (s.cfg.notch k) = true →
    phaseOf s.cfg a b ≠ 0b00 → phaseOf s.cfg a b ≠ (s.rqd k).phase → phaseOf s.cfg a b ^^^ (s.rqd k).phase ≠ 0b11 →
    (phaseOf s.cfg a b = succCw (s.rqd k).phase ∨ phaseOf s.cfg a b = succCcw (s.rqd k).phase) ∧
    ∃ t, exec (.rqdSample k a b c) s = .next t ∧ (t.rqd k).lost = (s.rqd k).lost ∧ (t.rqd k).pos = (s.rqd k).pos ∧
      (t.rqd k).acc.toInt = (
        if (s.rqd k).lost then 0
        else if phaseOf s.cfg a b = succCw (s.rqd k).phase then (s.rqd k).acc.toInt + 1
        else (s.rqd k).acc.toInt - 1) ∧
      t.ev k = s.ev k ++ (if (c == s.cfg.btnActive k) = (s.rqd k).btn then []
        else [evword k.src (buttonKind s.cfg.btnMode (c == s.cfg.btnActive k)) 0])

/-- 40_rotary_decoder.md R104, R105 and R108: arrival at the detent from another phase. A full clockwise or counter-clockwise cycle
moves the position with wrap at N and emits the updated position before any button event; nothing else does. -/
def Obligations.FullCycleClicksOnce : Prop :=
  ∀ (s : State) (k : Knob) (a b c : Bool), s.cfg.valid = true → (s.rqd k).ok (s.cfg.notch k) = true →
    phaseOf s.cfg a b = 0b00 → (s.rqd k).phase ≠ 0b00 →
    ∃ t rot, exec (.rqdSample k a b c) s = .next t ∧ (t.rqd k).acc = 0 ∧ (t.rqd k).lost = false ∧
      (t.ev k = s.ev k ++ rot ++ (if (c == s.cfg.btnActive k) = (s.rqd k).btn then []
        else [evword k.src (buttonKind s.cfg.btnMode (c == s.cfg.btnActive k)) 0])) ∧
      (if (s.rqd k).lost = false ∧ (s.rqd k).phase = 0b01 ∧ (s.rqd k).acc.toInt = 3 then
        (t.rqd k).pos.toNat = (if (s.rqd k).pos.toNat = s.cfg.notch k then 0 else (s.rqd k).pos.toNat + 1) ∧
          rot = [evword k.src .rotatedClockwise (t.rqd k).pos]
      else if (s.rqd k).lost = false ∧ (s.rqd k).phase = 0b10 ∧ (s.rqd k).acc.toInt = -3 then
        (t.rqd k).pos.toNat = (if (s.rqd k).pos.toNat = 0 then s.cfg.notch k else (s.rqd k).pos.toNat - 1) ∧
          rot = [evword k.src .rotatedCounterClockwise (t.rqd k).pos]
      else (t.rqd k).pos = (s.rqd k).pos ∧ rot = [])

/-- 40_rotary_decoder.md R106 and R107: the pressed-state follows the line, and each change of it emits one event of the configured
variant, with POS = 0, as the last word of the sample; no change emits none. R108: before it stands at most one rotation event, and that
only where the sample arrives at the detent at the end of a full cycle (R104). -/
def Obligations.ButtonChangesEmitOneEvent : Prop :=
  ∀ (s : State) (k : Knob) (a b c : Bool), s.cfg.valid = true → (s.rqd k).ok (s.cfg.notch k) = true →
    ∃ t rot, exec (.rqdSample k a b c) s = .next t ∧
      (t.rqd k).btn = decide (c = s.cfg.btnActive k) ∧
      (∀ w ∈ rot, w = evword k.src .rotatedClockwise (t.rqd k).pos ∨ w = evword k.src .rotatedCounterClockwise (t.rqd k).pos) ∧
      rot.length ≤ 1 ∧
      (rot ≠ [] → phaseOf s.cfg a b = 0b00 ∧ (s.rqd k).lost = false ∧
        ((s.rqd k).phase = 0b01 ∧ (s.rqd k).acc.toInt = 3 ∨ (s.rqd k).phase = 0b10 ∧ (s.rqd k).acc.toInt = -3)) ∧
      t.ev k = s.ev k ++ rot ++
        (if (t.rqd k).btn = (s.rqd k).btn then []
         else match s.cfg.btnMode, (t.rqd k).btn with
          | .paired, true => [evword k.src .buttonDown 0]
          | .paired, false => [evword k.src .buttonUp 0]
          | .single, _ => [evword k.src .button 0])

/-- 40_rotary_decoder.md R110: a sample that changes nothing does nothing; one that changes only BTN leaves the quadrature state and
emits no rotation event, one that changes only A or B leaves the pressed-state and emits no button event. -/
def Obligations.SampleWithoutChangeDoesNothing : Prop :=
  ∀ (s : State) (k : Knob) (a b c : Bool), s.cfg.valid = true → (s.rqd k).ok (s.cfg.notch k) = true →
    (phaseOf s.cfg a b = (s.rqd k).phase → (c == s.cfg.btnActive k) = (s.rqd k).btn →
      exec (.rqdSample k a b c) s = .next s) ∧
    (phaseOf s.cfg a b = (s.rqd k).phase →
      ∃ t, exec (.rqdSample k a b c) s = .next t ∧ t.rqd k = { s.rqd k with btn := (t.rqd k).btn } ∧
        t.ev k = s.ev k ++ (if (c == s.cfg.btnActive k) = (s.rqd k).btn then []
          else [evword k.src (buttonKind s.cfg.btnMode (c == s.cfg.btnActive k)) 0])) ∧
    ((c == s.cfg.btnActive k) = (s.rqd k).btn →
      ∃ t rot, exec (.rqdSample k a b c) s = .next t ∧ (t.rqd k).btn = (s.rqd k).btn ∧ t.ev k = s.ev k ++ rot ∧ rot.length ≤ 1 ∧
        ∀ w ∈ rot, w = evword k.src .rotatedClockwise (t.rqd k).pos ∨ w = evword k.src .rotatedCounterClockwise (t.rqd k).pos)

/-- 10_state.md R43, R44 and R46: after reset, and after every step from a state with the invariant, each decoder instance is in its
bounds; within a sample the count reaches 4 or -4 only where the phase lands on the detent. -/
def Obligations.DecoderStaysInItsBounds : Prop :=
  (∀ (s t : State) (k : Knob), s.Inv → (step s = .next t ∨ t = State.resetWith s.cfg) →
    (t.rqd k).pos.toNat ≤ t.cfg.notch k ∧ -3 ≤ (t.rqd k).acc.toInt ∧ (t.rqd k).acc.toInt ≤ 3 ∧
      ((t.rqd k).lost = false →
        (t.rqd k).acc.toInt % 4 = ([0b00, 0b10, 0b11, 0b01] : List (BitVec 2)).idxOf (t.rqd k).phase) ∧
      ((t.rqd k).lost = true → (t.rqd k).acc = 0)) ∧
  ∀ (n : Nat) (r : Rqd) (p : BitVec 2), r.ok n = true → p ≠ r.phase →
    ((transition p r).acc.toInt = 4 ∨ (transition p r).acc.toInt = -4) → p = 0b00

/-- 40_rotary_decoder.md R113 (with 70_reset_and_hazards.md R233): the first sample after reset is compared with phase 00 and released,
whatever the pins are; a second sample that brings the phase to the detent clicks nothing: it emits the button event of a changed
pressed-state, if any, and no other word. -/
def Obligations.ResetWithPinsOffTheDetent : Prop :=
  ∀ (s : State) (k : Knob) (a b c : Bool), s.cfg.valid = true → s.rqd k = Rqd.reset →
    ∃ t, exec (.rqdSample k a b c) s = .next t ∧ (t.rqd k).pos = 0 ∧
      (t.rqd k).lost = decide (phaseOf s.cfg a b = 0b11) ∧
      (t.rqd k).acc.toInt = (if phaseOf s.cfg a b = 0b10 then 1 else if phaseOf s.cfg a b = 0b01 then -1 else 0) ∧
      t.ev k = s.ev k ++ (if c = s.cfg.btnActive k
        then [evword k.src (if s.cfg.btnMode = .paired then .buttonDown else .button) 0] else []) ∧
      (phaseOf s.cfg a b = 0b00 → c ≠ s.cfg.btnActive k → t = s) ∧
      ∀ a' b' c' : Bool, phaseOf s.cfg a' b' = 0b00 →
        ∃ u, exec (.rqdSample k a' b' c') t = .next u ∧ (u.rqd k).acc = 0 ∧ (u.rqd k).lost = false ∧ (u.rqd k).pos = 0 ∧
          u.ev k = t.ev k ++ (if (c' == s.cfg.btnActive k) = (t.rqd k).btn then []
            else [evword k.src (buttonKind s.cfg.btnMode (c' == s.cfg.btnActive k)) 0])

/-- The last sentence of 40_rotary_decoder.md R113, for one sample: the position moves only on an arrival at the detent that ends a
full cycle. -/
def Obligations.PositionMovesOnlyOnAFullCycle : Prop :=
  ∀ (s t : State) (k : Knob) (a b c : Bool), exec (.rqdSample k a b c) s = .next t → (t.rqd k).pos ≠ (s.rqd k).pos →
    phaseOf s.cfg a b = 0b00 ∧ (s.rqd k).lost = false ∧
      ((s.rqd k).phase = 0b01 ∧ (s.rqd k).acc.toInt = 3 ∨ (s.rqd k).phase = 0b10 ∧ (s.rqd k).acc.toInt = -3)

/-- What RQD.SAMPLE leaves unchanged (40_rotary_decoder.md R100, R114, 60_exceptions.md R205): everything but RQD[k] and EV[k], to
which it appends at most two words. All of memory is unchanged. -/
def Obligations.SampleTouchesOneKnobOnly : Prop :=
  ∀ (s t : State) (k : Knob) (a b c : Bool), exec (.rqdSample k a b c) s = .next t →
    t = { s with rqdRed := t.rqdRed, rqdYellow := t.rqdYellow, evRed := t.evRed, evYellow := t.evYellow } ∧
    (∀ k', k' ≠ k → t.rqd k' = s.rqd k' ∧ t.ev k' = s.ev k') ∧
    (∃ ws, t.ev k = s.ev k ++ ws ∧ ws.length ≤ 2) ∧
    (∀ j, t.readPix j = s.readPix j) ∧ (∀ j, t.readFb j = s.readFb j) ∧ ∀ j, t.readCell j = s.readCell j

/-- The pseudo-operations RQD.CW and RQD.CCW (30_encoding.md R85) from the detent phase, with P_QUAD_INVERT = 0 and the button as
recorded: one click in the one direction or the other. -/
def Obligations.PseudoTurnsClickOnce : Prop :=
  ∀ (s : State) (k : Knob) (btn : Bool), s.cfg.valid = true → (s.rqd k).ok (s.cfg.notch k) = true →
    s.cfg.quadInvert = false → (s.rqd k).phase = 0b00 → (s.rqd k).lost = false → (btn == s.cfg.btnActive k) = (s.rqd k).btn →
    (∃ t, execAll (expandRqdCw k btn) s = .next t ∧
      (t.rqd k).pos.toNat = (if (s.rqd k).pos.toNat = s.cfg.notch k then 0 else (s.rqd k).pos.toNat + 1) ∧
      t.ev k = s.ev k ++ [evword k.src .rotatedClockwise (t.rqd k).pos]) ∧
    ∃ t, execAll (expandRqdCcw k btn) s = .next t ∧
      (t.rqd k).pos.toNat = (if (s.rqd k).pos.toNat = 0 then s.cfg.notch k else (s.rqd k).pos.toNat - 1) ∧
      t.ev k = s.ev k ++ [evword k.src .rotatedCounterClockwise (t.rqd k).pos]

/-! ## Frames and errors of the commands -/

/-- NOP, the reserved row, GOL.READ and GOL.STATUS change ERR and RESULT only (20_memory.md R58, 43_control.md R190, R191): every
other register, flag and log, and all of memory, is unchanged. -/
def Obligations.ReadingCommandsChangeTheResponseOnly : Prop :=
  ∀ (s t : State) (i : Instr),
    (match i with
      | .nop | .reserved _ | .golRead _ _ | .golStatus => true
      | _ => false) = true →
    exec i s = .next t →
    t = { s with err := t.err, result := t.result } ∧
    (∀ j, t.readPix j = s.readPix j) ∧ (∀ j, t.readFb j = s.readFb j) ∧ ∀ j, t.readCell j = s.readCell j

/-- What PIX.WRITE, LED.ENCODE, LED.TX, GOL.RESET and GOL.STEP leave unchanged, each named (41_led_encoder.md R130, R140, R146,
42_game_of_life.md R161, R166): PIX.WRITE stores at the index idx and every other index of PIX reads as before. -/
def Obligations.WritingCommandsChangeTheirOwnStateOnly : Prop :=
  (∀ (s t : State) (idx : Half) (v : Word), Memory.wf pixBlank s.pix = true → exec (.pixWrite idx v) s = .next t →
    t = { s with pix := t.pix, err := t.err, result := t.result } ∧ ∀ j, j ≠ idx.toNat → t.readPix j = s.readPix j) ∧
  (∀ (s t : State) (count : Word), exec (.ledEncode count) s = .next t →
    t = { s with fb := t.fb, fbValid := t.fbValid, err := t.err, result := t.result }) ∧
  (∀ s t : State, exec .ledTx s = .next t → t = { s with tx := t.tx, err := t.err, result := t.result }) ∧
  (∀ (s t : State) (seed : Word), exec (.golReset seed) s = .next t →
    t = { s with grid := t.grid, gridValid := t.gridValid, changed := t.changed, err := t.err, result := t.result,
                 cmdState := t.cmdState }) ∧
  ∀ s t : State, exec .golStep s = .next t →
    t = { s with grid := t.grid, changed := t.changed, err := t.err, result := t.result }

/-- 60_exceptions.md R203: a command that answers an error changes ERR and RESULT only, RESULT to 0. -/
def Obligations.ErrorsArePrecise : Prop :=
  ∀ (s t : State) (i : Instr), isCommand i = true → exec i s = .next t → t.cmdState = .idle → t.err ≠ 0 →
    t = { s with err := t.err, result := 0 }

/-- 60_exceptions.md R201 and R202: the error code of every command that completes, for every command word; an illegal one is never
performed, whatever its OPC field holds. -/
def Obligations.EveryCommandHasItsErrorCode : Prop :=
  ∀ (s t : State) (cw arg : Word), exec (decodeCmd cw arg) s = .next t → t.cmdState = .idle →
    t.err = (
      if illegalWord cw then 1
      else match decodeCmd cw arg with
        | .pixWrite idx _ => if s.cfg.nLeds ≤ idx.toNat then 2 else 0
        | .ledEncode count => if s.cfg.nLeds < count.toNat then 3 else 0
        | .ledTx => if s.fbValid then 0 else 4
        | .golStep => if s.gridValid then 0 else 5
        | .golRead _ _ => if s.gridValid then 0 else 5
        | _ => 0) ∧
    (illegalWord cw = true → t = { s with err := 1, result := 0 })

/-- Repeating GOL.READ, GOL.STATUS, PIX.WRITE, LED.ENCODE or GOL.RESET with the same operands gives the same state, and a second
LED.TX sends the same bytes again (20_memory.md R58). -/
def Obligations.RepeatingACommandChangesNothingMore : Prop :=
  (∀ (s t : State) (i : Instr), s.Inv →
    (match i with
      | .golRead _ _ | .golStatus | .pixWrite _ _ | .ledEncode _ => true
      | .golReset seed => seed ≠ 0
      | _ => false) = true →
    exec i s = .next t → exec i t = .next t) ∧
  ∀ s t : State, s.fbValid = true → exec .ledTx s = .next t →
    ∃ bs, t.tx = s.tx ++ bs ∧ exec .ledTx t = .next { t with tx := s.tx ++ bs ++ bs }

/-! ## The whole machine -/

/-- 70_reset_and_hazards.md R231: the values after reset, for every configuration. -/
def Obligations.ResetLeavesTheStatedValues : Prop :=
  ∀ c : Config,
    (∀ k, (State.resetWith c).rqd k = { phase := 0b00, acc := 0, lost := false, pos := 0, btn := false }) ∧
    Knob.red.src = 0 ∧ Knob.yellow.src = 1 ∧
    (∀ i < c.nLeds, (State.resetWith c).readPix i = 0) ∧
    (State.resetWith c).fbValid = false ∧ (State.resetWith c).gridValid = false ∧ (State.resetWith c).changed = false ∧
    (State.resetWith c).allDead = false ∧ (State.resetWith c).err = 0 ∧ (State.resetWith c).result = 0 ∧
    (State.resetWith c).cmdState = .idle ∧
    (∀ k, (State.resetWith c).ev k = []) ∧ (State.resetWith c).tx = []

/-- 70_reset_and_hazards.md R230: the reset event, in every state, HUNG ones too (60_exceptions.md R207). That it is taken as the oldest
input of a list is the model's choice (log entry 2); that at a HUNG port it is taken past the commands that wait before it is the model's
reading (log entry 6), and so is that those are dropped and what was presented after it stays (log entry 5). -/
def Obligations.ResetEventFromEveryState : Prop :=
  ∀ (s : State) (rest : List Input), s.cfg.valid = true →
    (s.inputs = .reset :: rest → step s = .next { State.resetWith s.cfg with inputs := rest }) ∧
    ∀ cs : List (Word × Word), s.cmdState = .hung → s.inputs = cs.map (fun c => .cmd c.1 c.2) ++ .reset :: rest →
      step s = .next { State.resetWith s.cfg with inputs := rest }

/-- A step runs the decoded instruction, whole (00_scope.md R18, 60_exceptions.md R216): with the port IDLE that of the oldest input, which
the step takes and removes. That a step takes the oldest input of a list is the model's choice (log entry 2), no rule of the spec: 60_exceptions.md
R215 leaves the schedule open. -/
def Obligations.StepRunsTheDecodedInstruction : Prop :=
  ∀ (s : State) (i : Input) (rest : List Input) (instr : Instr),
    s.cmdState = .idle → s.inputs = i :: rest → decode i = some instr →
    step s = exec instr { s with inputs := rest }

/-- With the port HUNG a step takes the first sample past the commands that wait, which stay waiting; and where only commands are left, the
machine is stuck, as the fault commandPortHung. Both are the model's reading (log entry 6, DEDUCED, over the input list of log entry 2), no
rule of the spec: 60_exceptions.md R207 gives the HUNG port no further step, and R215 lets any agent with a pending input step. -/
def Obligations.HungPortLetsDecodersRun : Prop :=
  ∀ (s : State) (cs : List (Word × Word)), s.cmdState = .hung →
    (∀ (p : BitVec 4) (rest : List Input), s.inputs = cs.map (fun c => .cmd c.1 c.2) ++ .pin p :: rest →
      step s = exec (decodePin p) { s with inputs := cs.map (fun c => .cmd c.1 c.2) ++ rest }) ∧
    (s.cfg.valid = true → cs ≠ [] → s.inputs = cs.map (fun c => .cmd c.1 c.2) → step s = .fault .commandPortHung)

/-- With no input presented the block waits: the model's own choice of a step (log entry 4). -/
def Obligations.NoInputNoChange : Prop :=
  ∀ s : State, s.cfg.valid = true → s.inputs = [] → step s = .next s

/-- A configuration outside 00_scope.md R7, R11, R12 or R15 is refused by every operation and every step. -/
def Obligations.BadConfigurationIsRefused : Prop :=
  ∀ s : State, (255 < s.cfg.notchRed ∨ 255 < s.cfg.notchYellow ∨ s.cfg.nLeds < 1 ∨ s.cfg.nLeds ≠ s.cfg.cols * s.cfg.cols ∨
      s.cfg.golW < 1 ∨ 32767 < s.cfg.golW ∨ s.cfg.golH < 1 ∨ 32767 < s.cfg.golH) →
    (∀ i : Instr, exec i s = .refused .badConfiguration) ∧ step s = .refused .badConfiguration

/-- The invariant holds after reset, for every configuration that is not refused, and so in State.reset. -/
def Obligations.InvariantHoldsAtReset : Prop :=
  (∀ c : Config, c.valid = true → (State.resetWith c).Inv) ∧ State.reset.Inv

/-- Every step keeps the invariant (10_state.md R43, R44, R46; 30_encoding.md R76, R77; 60_exceptions.md R201), from every state
that has it. -/
def Obligations.EveryStepKeepsTheInvariant : Prop :=
  ∀ s t : State, s.Inv → step s = .next t → t.Inv

/-- From every state with the invariant whose port is IDLE a step answers a next state: no operation faults or is refused
(60_exceptions.md R200, R206, 10_state.md R47). -/
def Obligations.NoOperationStopsAnIdleBlock : Prop :=
  ∀ s : State, s.Inv → s.cmdState = .idle → (∃ t, step s = .next t) ∧ ∀ i : Instr, ∃ t, exec i s = .next t

/-- No step changes the parameters (00_scope.md, section 3: no operation changes them). -/
def Obligations.NoStepChangesTheParameters : Prop :=
  ∀ s t : State, step s = .next t → t.cfg = s.cfg

/-- 20_memory.md R55: a sample of one knob and a command, and samples of the two knobs, give the same state in either order. -/
def Obligations.AgentsCommute : Prop :=
  (∀ (s t u : State) (k : Knob) (a b c : Bool) (i : Instr), isCommand i = true →
    exec (.rqdSample k a b c) s = .next t → exec i s = .next u →
    ∃ v, exec i t = .next v ∧ exec (.rqdSample k a b c) u = .next v) ∧
  ∀ (s t u : State) (a b c a' b' c' : Bool),
    exec (.rqdSample .red a b c) s = .next t → exec (.rqdSample .yellow a' b' c') s = .next u →
    ∃ v, exec (.rqdSample .yellow a' b' c') t = .next v ∧ exec (.rqdSample .red a b c) u = .next v

/-- The only writers of each piece of command state (10_state.md R40, 20_memory.md R50, R62, 42_game_of_life.md R177), and no
command touches a decoder (20_memory.md R55). -/
def Obligations.EveryStateHasItsWriters : Prop :=
  ∀ (s t : State) (i : Instr), exec i s = .next t →
    (t.pix ≠ s.pix → ∃ idx v, i = .pixWrite idx v) ∧
    (t.fb ≠ s.fb ∨ t.fbValid ≠ s.fbValid → ∃ n, i = .ledEncode n) ∧
    (t.tx ≠ s.tx → i = .ledTx) ∧
    (t.grid ≠ s.grid ∨ t.changed ≠ s.changed → (∃ seed, i = .golReset seed) ∨ i = .golStep) ∧
    (t.gridValid ≠ s.gridValid → ∃ seed, i = .golReset seed) ∧
    (t.cmdState ≠ s.cmdState → i = .golReset 0) ∧
    (isCommand i = true → ∀ k, t.rqd k = s.rqd k ∧ t.ev k = s.ev k) ∧
    (isCommand i = false → t.err = s.err ∧ t.result = s.result)

/-- Nothing but reset clears FB_VALID or GRID_VALID (10_state.md R30, R32) or shortens an output log (R38): over every step that
takes no reset event. -/
def Obligations.OnlyResetClears : Prop :=
  ∀ s t : State, (∀ rest, fetch s ≠ some (.reset, rest)) → step s = .next t →
    (s.fbValid = true → t.fbValid = true) ∧ (s.gridValid = true → t.gridValid = true) ∧
    (s.cmdState = .hung → t.cmdState = .hung) ∧
    (∀ k, s.ev k <+: t.ev k) ∧ s.tx <+: t.tx

/-- 60_exceptions.md R222: what a run from reset shows. The observation begins empty; a sample adds no response; a command that completes
adds its ERR and RESULT; a reset starts the run of the reset block (the model's reading of 10_state.md R38, log entry 19), with the inputs
after it (log entry 5); that each is taken as the oldest input of a list is the model's choice (log entry 2); a run whose port
is HUNG, in which no reset is presented, stays without completion and gains no response. -/
def Obligations.ObservationCollectsTheResponses : Prop :=
  (∀ (c : Config) (l : List Input), observe 0 c l = some ⟨[], [], [], [], .idle⟩) ∧
  (∀ (n : Nat) (rs : List (BitVec 4 × Word)) (s t : State) (p : BitVec 4) (rest : List Input),
    s.cmdState = .idle → s.inputs = .pin p :: rest → step s = .next t → observeFrom (n + 1) rs s = observeFrom n rs t) ∧
  (∀ (n : Nat) (rs : List (BitVec 4 × Word)) (s t : State) (cw arg : Word) (rest : List Input),
    s.cmdState = .idle → s.inputs = .cmd cw arg :: rest → step s = .next t →
    observeFrom (n + 1) rs s = observeFrom n (if t.cmdState = .idle then rs ++ [(t.err, t.result)] else rs) t) ∧
  (∀ (n : Nat) (rs : List (BitVec 4 × Word)) (s : State) (rest : List Input),
    s.cfg.valid = true → s.inputs = .reset :: rest → observeFrom (n + 1) rs s = observe n s.cfg rest) ∧
  ∀ (n : Nat) (rs : List (BitVec 4 × Word)) (s : State) (o : Observation),
    s.cmdState = .hung → Input.reset ∉ s.inputs → observeFrom n rs s = some o → o.responses = rs ∧ o.completed = false

/-- 41_led_encoder.md R148: P_SERIAL_RATE decides nothing. A block built for any other rate gives the same outcome of every operation and
every step, a next state, a fault or a refusal, the rate apart, and the same observation of every run. -/
def Obligations.SerialRateDecidesNothing : Prop :=
  (∀ (s : State) (r : Option Nat),
    (∀ t : State, step s = .next t → step (s.withSerialRate r) = .next (t.withSerialRate r)) ∧
    (∀ f : Fault, step s = .fault f → step (s.withSerialRate r) = .fault f) ∧
    (∀ f : Refusal, step s = .refused f → step (s.withSerialRate r) = .refused f) ∧
    ∀ i : Instr,
      (∀ t : State, exec i s = .next t → exec i (s.withSerialRate r) = .next (t.withSerialRate r)) ∧
      (∀ f : Fault, exec i s = .fault f → exec i (s.withSerialRate r) = .fault f) ∧
      (∀ f : Refusal, exec i s = .refused f → exec i (s.withSerialRate r) = .refused f)) ∧
  ∀ (n : Nat) (c : Config) (l : List Input) (r : Option Nat), observe n { c with serialRate := r } l = observe n c l

/-- 70_reset_and_hazards.md R248: LED.TX sends FRAME_LEN * 8 bits, which occupy the line for FRAME_LEN * 8 / r seconds at a rate r (not 0); in
the reference configuration FRAME_LEN is 2432, which is 19456 bits. -/
def Obligations.WireTimeOfAFrame : Prop :=
  (∀ s : State, s.Inv → s.cmdState = .idle → s.fbValid = true →
    ∃ (t : State) (bs : List Byte), exec .ledTx s = .next t ∧ t.tx = s.tx ++ bs ∧ (bs.flatMap serialBits).length = s.cfg.frameLen * 8) ∧
  (∀ (c : Config) (r : Nat), r ≠ 0 → { c with serialRate := some r }.wireTime = some (((c.frameLen * 8 : Nat) : Rat) / (r : Rat))) ∧
  Config.reference.frameLen = 2432 ∧ Config.reference.wireBits = 19456
end

