-- ==== Sys2Proof/Laws/Memory.lean ====
section
/-! SUPPORT. The laws of an index space: a read after a write, a whole space loaded and dumped, and the canonical form that every
operation keeps. -/

namespace Sys2Proof.Machine

variable {α : Type}

/-! ## Reading and writing one element -/

@[simp] theorem find_nil (b : Nat) : Memory.find b ([] : Memory α) = none := rfl

@[simp] theorem find_cons (b k : Nat) (v : α) (m : Memory α) :
    Memory.find b ((k, v) :: m) = if k = b then some v else Memory.find b m := rfl

theorem find_insert (a b : Nat) (v : α) (m : Memory α) :
    Memory.find b (Memory.insert a v m) = if b = a then some v else Memory.find b m := by
  induction m with
  | nil => simp [Memory.insert, eq_comm]
  | cons e m ih =>
    obtain ⟨k, w⟩ := e
    unfold Memory.insert
    split
    · simp [eq_comm]
    · split
      · rename_i h
        subst h
        simp only [find_cons, eq_comm (a := k)]
        split <;> simp_all
      · simp only [find_cons, ih]
        split
        · rename_i h1 h2; subst h2; simp [h1]
        · rfl

/-- An index below the lowest allowed one is not listed. -/
theorem find_eq_none_of_lt [DecidableEq α] {blank : Option α} {lo b : Nat} {m : Memory α}
    (h : Memory.wfFrom blank lo m = true) (hb : b < lo) : Memory.find b m = none := by
  induction m generalizing lo with
  | nil => rfl
  | cons e m ih =>
    obtain ⟨k, v⟩ := e
    simp only [Memory.wfFrom, Bool.and_eq_true, decide_eq_true_eq] at h
    rw [find_cons, if_neg (by omega), ih h.2 (by omega)]

theorem find_erase [DecidableEq α] {blank : Option α} {lo : Nat} (a b : Nat) {m : Memory α}
    (h : Memory.wfFrom blank lo m = true) :
    Memory.find b (Memory.erase a m) = if b = a then none else Memory.find b m := by
  induction m generalizing lo with
  | nil => simp [Memory.erase]
  | cons e m ih =>
    obtain ⟨k, v⟩ := e
    simp only [Memory.wfFrom, Bool.and_eq_true, decide_eq_true_eq] at h
    unfold Memory.erase
    split
    · rename_i hk
      subst hk
      split
      · rename_i hb; subst hb; exact find_eq_none_of_lt h.2 (by omega)
      · rename_i hb; simp [Ne.symm hb]
    · simp only [find_cons, ih h.2]
      split
      · rename_i h1 h2; subst h2; simp [h1]
      · rfl

/-- A read after a write: the value written at its index, and what was there before anywhere else. -/
theorem read_write [DecidableEq α] {blank : Option α} {m : Memory α} (h : Memory.wf blank m = true) (a b : Nat) (v : α) :
    Memory.read blank (Memory.write blank m a v) b = if b = a then some v else Memory.read blank m b := by
  unfold Memory.read Memory.write
  split
  · rename_i hv
    rw [find_erase a b h]
    split <;> simp [hv]
  · rw [find_insert]
    split <;> simp

/-! ## The canonical form -/

theorem wfFrom_mono [DecidableEq α] {blank : Option α} {lo lo' : Nat} {m : Memory α} (hl : lo' ≤ lo)
    (h : Memory.wfFrom blank lo m = true) : Memory.wfFrom blank lo' m = true := by
  cases m with
  | nil => rfl
  | cons e m =>
    simp only [Memory.wfFrom, Bool.and_eq_true, decide_eq_true_eq] at h ⊢
    exact ⟨⟨by omega, h.1.2⟩, h.2⟩

theorem wfFrom_erase [DecidableEq α] {blank : Option α} {lo : Nat} (a : Nat) {m : Memory α}
    (h : Memory.wfFrom blank lo m = true) : Memory.wfFrom blank lo (Memory.erase a m) = true := by
  induction m generalizing lo with
  | nil => rfl
  | cons e m ih =>
    obtain ⟨k, v⟩ := e
    simp only [Memory.wfFrom, Bool.and_eq_true, decide_eq_true_eq] at h
    unfold Memory.erase
    split
    · exact wfFrom_mono (by omega) h.2
    · simp only [Memory.wfFrom, Bool.and_eq_true, decide_eq_true_eq]
      exact ⟨h.1, ih h.2⟩

theorem wfFrom_insert [DecidableEq α] {blank : Option α} {lo a : Nat} {v : α} {m : Memory α} (hv : blank ≠ some v)
    (ha : lo ≤ a) (h : Memory.wfFrom blank lo m = true) : Memory.wfFrom blank lo (Memory.insert a v m) = true := by
  induction m generalizing lo with
  | nil => simp [Memory.insert, Memory.wfFrom, ha, hv]
  | cons e m ih =>
    obtain ⟨k, w⟩ := e
    simp only [Memory.wfFrom, Bool.and_eq_true, decide_eq_true_eq] at h
    unfold Memory.insert
    split
    · simp only [Memory.wfFrom, Bool.and_eq_true, decide_eq_true_eq]
      exact ⟨⟨ha, hv⟩, ⟨by omega, h.1.2⟩, h.2⟩
    · split
      · rename_i hk
        subst hk
        simp only [Memory.wfFrom, Bool.and_eq_true, decide_eq_true_eq]
        exact ⟨⟨ha, hv⟩, h.2⟩
      · simp only [Memory.wfFrom, Bool.and_eq_true, decide_eq_true_eq]
        exact ⟨h.1, ih (by omega) h.2⟩

/-- A write keeps the canonical form. -/
theorem wf_write [DecidableEq α] {blank : Option α} {m : Memory α} (h : Memory.wf blank m = true) (a : Nat) (v : α) :
    Memory.wf blank (Memory.write blank m a v) = true := by
  unfold Memory.write
  split
  · exact wfFrom_erase a h
  · rename_i hv
    exact wfFrom_insert hv (Nat.zero_le a) h

/-- Two canonical lists that read the same everywhere are the same list. -/
theorem wfFrom_ext [DecidableEq α] {blank : Option α} {lo : Nat} {m n : Memory α}
    (hm : Memory.wfFrom blank lo m = true) (hn : Memory.wfFrom blank lo n = true)
    (h : ∀ b, Memory.read blank m b = Memory.read blank n b) : m = n := by
  induction m generalizing n lo with
  | nil =>
    cases n with
    | nil => rfl
    | cons e n =>
      obtain ⟨k, v⟩ := e
      simp only [Memory.wfFrom, Bool.and_eq_true, decide_eq_true_eq] at hn
      have := h k
      simp [Memory.read] at this
      exact absurd this hn.1.2
  | cons e m ih =>
    obtain ⟨k, v⟩ := e
    simp only [Memory.wfFrom, Bool.and_eq_true, decide_eq_true_eq] at hm
    cases n with
    | nil =>
      have := h k
      simp [Memory.read] at this
      exact absurd this.symm hm.1.2
    | cons e' n =>
      obtain ⟨k', v'⟩ := e'
      simp only [Memory.wfFrom, Bool.and_eq_true, decide_eq_true_eq] at hn
      have hk : k = k' := by
        rcases Nat.lt_trichotomy k k' with hlt | heq | hgt
        · have := h k
          simp only [Memory.read, find_cons, if_true, if_neg (show ¬k' = k by omega)] at this
          rw [find_eq_none_of_lt hn.2 (show k < k' + 1 by omega)] at this
          simp at this
          exact absurd this.symm hm.1.2
        · exact heq
        · have := h k'
          simp only [Memory.read, find_cons, if_true, if_neg (show ¬k = k' by omega)] at this
          rw [find_eq_none_of_lt hm.2 (show k' < k + 1 by omega)] at this
          simp at this
          exact absurd this hn.1.2
      subst hk
      have hv : v = v' := by simpa [Memory.read] using h k
      subst hv
      rw [ih hm.2 hn.2 fun b => ?_]
      rcases Nat.lt_or_ge b (k + 1) with hb | hb
      · simp [Memory.read, find_eq_none_of_lt hm.2 hb, find_eq_none_of_lt hn.2 hb]
      · have := h b
        simpa [Memory.read, if_neg (show ¬k = b by omega)] using this

/-! ## A whole space -/

theorem find_load (a b : Nat) (vs : List α) :
    Memory.find b (Memory.load a vs) = if a ≤ b then vs[b - a]? else none := by
  induction vs generalizing a with
  | nil => simp [Memory.load]
  | cons v vs ih =>
    simp only [Memory.load, find_cons, ih]
    rcases Nat.lt_trichotomy a b with h | h | h
    · rw [if_neg (by omega), if_pos (by omega), if_pos (by omega), show b - a = (b - (a + 1)) + 1 by omega,
        List.getElem?_cons_succ]
    · subst h; simp
    · rw [if_neg (by omega), if_neg (by omega), if_neg (by omega)]

theorem keys_load (a : Nat) (vs : List α) : (Memory.load a vs).map Prod.fst = List.range' a vs.length := by
  induction vs generalizing a with
  | nil => rfl
  | cons v vs ih => simp [Memory.load, ih, List.range'_succ]

theorem values_load (a : Nat) (vs : List α) : (Memory.load a vs).map Prod.snd = vs := by
  induction vs generalizing a with
  | nil => rfl
  | cons v vs ih => simp [Memory.load, ih]

/-- A list with exactly the indices of a space is that space loaded. -/
theorem load_of_keys {a n : Nat} {m : Memory α} (h : m.map Prod.fst = List.range' a n) :
    m = Memory.load a (m.map Prod.snd) := by
  induction m generalizing a n with
  | nil => rfl
  | cons e m ih =>
    obtain ⟨k, v⟩ := e
    cases n with
    | zero => simp at h
    | succ n =>
      simp only [List.map_cons, List.range'_succ, List.cons.injEq] at h
      obtain ⟨rfl, h⟩ := h
      simp only [List.map_cons, Memory.load]
      rw [← ih h]

/-- A loaded space is dumped as it was loaded. -/
theorem dump_load (a : Nat) (vs : List α) : Memory.dump a vs.length (Memory.load a vs) = some vs := by
  induction vs generalizing a with
  | nil => rfl
  | cons v vs ih => simp [Memory.load, Memory.dump, ih]

/-- What a dump answers, if it answers: as many elements as asked, each what its index reads as. -/
theorem dump_spec {a n : Nat} {m : Memory α} {vs : List α} (h : Memory.dump a n m = some vs) :
    vs.length = n ∧ ∀ b, a ≤ b → b < a + n → Memory.find b m = vs[b - a]? := by
  induction n generalizing a m vs with
  | zero =>
    simp only [Memory.dump, Option.some.injEq] at h
    subst h
    exact ⟨rfl, fun b h1 h2 => by omega⟩
  | succ n ih =>
    cases m with
    | nil => simp [Memory.dump] at h
    | cons e m =>
      obtain ⟨k, v⟩ := e
      simp only [Memory.dump] at h
      split at h
      · rename_i hk
        subst hk
        obtain ⟨ws, hws, rfl⟩ := Option.map_eq_some_iff.1 h
        obtain ⟨h1, h2⟩ := ih hws
        refine ⟨by simp [h1], fun b hb1 hb2 => ?_⟩
        rw [find_cons]
        split
        · rename_i he; subst he; simp
        · rw [h2 b (by omega) (by omega), show b - k = (b - (k + 1)) + 1 by omega, List.getElem?_cons_succ]
      · simp at h

theorem wf_load [DecidableEq α] (a : Nat) (vs : List α) : Memory.wfFrom none a (Memory.load a vs) = true := by
  induction vs generalizing a with
  | nil => rfl
  | cons v vs ih => simp [Memory.load, Memory.wfFrom, ih]

/-- A loaded space is in canonical form, where nothing is known of an unlisted index. -/
theorem wf_load_zero [DecidableEq α] (vs : List α) : Memory.wf none (Memory.load 0 vs) = true := wf_load 0 vs

/-- What is found is listed. -/
theorem mem_of_find {a : Nat} {v : α} {m : Memory α} (h : Memory.find a m = some v) : (a, v) ∈ m := by
  induction m with
  | nil => cases h
  | cons e m ih =>
    obtain ⟨k, w⟩ := e
    rw [find_cons] at h
    split at h
    · rename_i hk; subst hk; cases h; exact List.mem_cons_self
    · exact List.mem_cons_of_mem _ (ih h)

/-- A write puts no index into a list that it does not write. -/
theorem mem_write [DecidableEq α] {blank : Option α} {m : Memory α} {a : Nat} {v : α} {e : Nat × α}
    (h : e ∈ Memory.write blank m a v) : e ∈ m ∨ e = (a, v) := by
  unfold Memory.write at h
  split at h
  · refine Or.inl ?_
    induction m with
    | nil => simp [Memory.erase] at h
    | cons x m ih =>
      obtain ⟨k, w⟩ := x
      simp only [Memory.erase] at h
      split at h
      · exact List.mem_cons_of_mem _ h
      · rcases List.mem_cons.1 h with h | h
        · exact h ▸ List.mem_cons_self
        · exact List.mem_cons_of_mem _ (ih h)
  · induction m with
    | nil => simp [Memory.insert] at h; exact Or.inr h
    | cons x m ih =>
      obtain ⟨k, w⟩ := x
      simp only [Memory.insert] at h
      split at h
      · rcases List.mem_cons.1 h with h | h
        · exact Or.inr h
        · exact Or.inl h
      · split at h
        · rcases List.mem_cons.1 h with h | h
          · exact Or.inr h
          · exact Or.inl (List.mem_cons_of_mem _ h)
        · rcases List.mem_cons.1 h with h | h
          · exact Or.inl (h ▸ List.mem_cons_self)
          · exact (ih h).imp (List.mem_cons_of_mem _) id

/-- The memory of a machine after reset is in canonical form. -/
theorem reset_memory_wf (c : Config) :
    Memory.wf pixBlank (State.resetWith c).pix = true ∧ Memory.wf fbBlank (State.resetWith c).fb = true ∧
      Memory.wf gridBlank (State.resetWith c).grid = true :=
  ⟨rfl, rfl, rfl⟩

end Sys2Proof.Machine
end

