-- ==== Sys2Proof/Laws/State.lean ====
section
/-! SUPPORT. What each named update does to each field and each accessor of State: one lemma for each, so that no proof unfolds an update. -/

namespace Sys2Proof.Machine

@[simp] theorem rqd_red (s : State) : s.rqd .red = s.rqdRed := rfl
@[simp] theorem rqd_yellow (s : State) : s.rqd .yellow = s.rqdYellow := rfl
@[simp] theorem ev_red (s : State) : s.ev .red = s.evRed := rfl
@[simp] theorem ev_yellow (s : State) : s.ev .yellow = s.evYellow := rfl

/-! ## setRqd -/

@[simp] theorem setRqd_cfg (s : State) (k : Knob) (r : Rqd) :
    (s.setRqd k r).cfg = s.cfg := by cases k <;> rfl
@[simp] theorem setRqd_rqdRed (s : State) (k : Knob) (r : Rqd) :
    (s.setRqd k r).rqdRed = if k = .red then r else s.rqdRed := by cases k <;> rfl
@[simp] theorem setRqd_rqdYellow (s : State) (k : Knob) (r : Rqd) :
    (s.setRqd k r).rqdYellow = if k = .yellow then r else s.rqdYellow := by cases k <;> rfl
@[simp] theorem setRqd_evRed (s : State) (k : Knob) (r : Rqd) :
    (s.setRqd k r).evRed = s.evRed := by cases k <;> rfl
@[simp] theorem setRqd_evYellow (s : State) (k : Knob) (r : Rqd) :
    (s.setRqd k r).evYellow = s.evYellow := by cases k <;> rfl
@[simp] theorem setRqd_pix (s : State) (k : Knob) (r : Rqd) :
    (s.setRqd k r).pix = s.pix := by cases k <;> rfl
@[simp] theorem setRqd_fb (s : State) (k : Knob) (r : Rqd) :
    (s.setRqd k r).fb = s.fb := by cases k <;> rfl
@[simp] theorem setRqd_fbValid (s : State) (k : Knob) (r : Rqd) :
    (s.setRqd k r).fbValid = s.fbValid := by cases k <;> rfl
@[simp] theorem setRqd_tx (s : State) (k : Knob) (r : Rqd) :
    (s.setRqd k r).tx = s.tx := by cases k <;> rfl
@[simp] theorem setRqd_grid (s : State) (k : Knob) (r : Rqd) :
    (s.setRqd k r).grid = s.grid := by cases k <;> rfl
@[simp] theorem setRqd_gridValid (s : State) (k : Knob) (r : Rqd) :
    (s.setRqd k r).gridValid = s.gridValid := by cases k <;> rfl
@[simp] theorem setRqd_changed (s : State) (k : Knob) (r : Rqd) :
    (s.setRqd k r).changed = s.changed := by cases k <;> rfl
@[simp] theorem setRqd_err (s : State) (k : Knob) (r : Rqd) :
    (s.setRqd k r).err = s.err := by cases k <;> rfl
@[simp] theorem setRqd_result (s : State) (k : Knob) (r : Rqd) :
    (s.setRqd k r).result = s.result := by cases k <;> rfl
@[simp] theorem setRqd_cmdState (s : State) (k : Knob) (r : Rqd) :
    (s.setRqd k r).cmdState = s.cmdState := by cases k <;> rfl
@[simp] theorem setRqd_inputs (s : State) (k : Knob) (r : Rqd) :
    (s.setRqd k r).inputs = s.inputs := by cases k <;> rfl
@[simp] theorem setRqd_rqd (s : State) (k : Knob) (r : Rqd) (j : Knob) :
    (s.setRqd k r).rqd j = if j = k then r else s.rqd j := by cases j <;> cases k <;> rfl
@[simp] theorem setRqd_ev (s : State) (k : Knob) (r : Rqd) (j : Knob) :
    (s.setRqd k r).ev j = s.ev j := by cases j <;> cases k <;> rfl
@[simp] theorem setRqd_readPix (s : State) (k : Knob) (r : Rqd) (j : Nat) :
    (s.setRqd k r).readPix j = s.readPix j := by cases k <;> rfl
@[simp] theorem setRqd_readFb (s : State) (k : Knob) (r : Rqd) (j : Nat) :
    (s.setRqd k r).readFb j = s.readFb j := by cases k <;> rfl
@[simp] theorem setRqd_frame (s : State) (k : Knob) (r : Rqd) :
    (s.setRqd k r).frame = s.frame := by cases k <;> rfl
@[simp] theorem setRqd_readCell (s : State) (k : Knob) (r : Rqd) (j : Nat) :
    (s.setRqd k r).readCell j = s.readCell j := by cases k <;> rfl
@[simp] theorem setRqd_cells (s : State) (k : Knob) (r : Rqd) :
    (s.setRqd k r).cells = s.cells := by cases k <;> rfl
@[simp] theorem setRqd_allDead (s : State) (k : Knob) (r : Rqd) :
    (s.setRqd k r).allDead = s.allDead := by cases k <;> rfl

/-! ## emitEv -/

@[simp] theorem emitEv_cfg (s : State) (k : Knob) (ws : List Half) :
    (s.emitEv k ws).cfg = s.cfg := by cases k <;> rfl
@[simp] theorem emitEv_rqdRed (s : State) (k : Knob) (ws : List Half) :
    (s.emitEv k ws).rqdRed = s.rqdRed := by cases k <;> rfl
@[simp] theorem emitEv_rqdYellow (s : State) (k : Knob) (ws : List Half) :
    (s.emitEv k ws).rqdYellow = s.rqdYellow := by cases k <;> rfl
@[simp] theorem emitEv_evRed (s : State) (k : Knob) (ws : List Half) :
    (s.emitEv k ws).evRed = if k = .red then s.evRed ++ ws else s.evRed := by cases k <;> rfl
@[simp] theorem emitEv_evYellow (s : State) (k : Knob) (ws : List Half) :
    (s.emitEv k ws).evYellow = if k = .yellow then s.evYellow ++ ws else s.evYellow := by cases k <;> rfl
@[simp] theorem emitEv_pix (s : State) (k : Knob) (ws : List Half) :
    (s.emitEv k ws).pix = s.pix := by cases k <;> rfl
@[simp] theorem emitEv_fb (s : State) (k : Knob) (ws : List Half) :
    (s.emitEv k ws).fb = s.fb := by cases k <;> rfl
@[simp] theorem emitEv_fbValid (s : State) (k : Knob) (ws : List Half) :
    (s.emitEv k ws).fbValid = s.fbValid := by cases k <;> rfl
@[simp] theorem emitEv_tx (s : State) (k : Knob) (ws : List Half) :
    (s.emitEv k ws).tx = s.tx := by cases k <;> rfl
@[simp] theorem emitEv_grid (s : State) (k : Knob) (ws : List Half) :
    (s.emitEv k ws).grid = s.grid := by cases k <;> rfl
@[simp] theorem emitEv_gridValid (s : State) (k : Knob) (ws : List Half) :
    (s.emitEv k ws).gridValid = s.gridValid := by cases k <;> rfl
@[simp] theorem emitEv_changed (s : State) (k : Knob) (ws : List Half) :
    (s.emitEv k ws).changed = s.changed := by cases k <;> rfl
@[simp] theorem emitEv_err (s : State) (k : Knob) (ws : List Half) :
    (s.emitEv k ws).err = s.err := by cases k <;> rfl
@[simp] theorem emitEv_result (s : State) (k : Knob) (ws : List Half) :
    (s.emitEv k ws).result = s.result := by cases k <;> rfl
@[simp] theorem emitEv_cmdState (s : State) (k : Knob) (ws : List Half) :
    (s.emitEv k ws).cmdState = s.cmdState := by cases k <;> rfl
@[simp] theorem emitEv_inputs (s : State) (k : Knob) (ws : List Half) :
    (s.emitEv k ws).inputs = s.inputs := by cases k <;> rfl
@[simp] theorem emitEv_rqd (s : State) (k : Knob) (ws : List Half) (j : Knob) :
    (s.emitEv k ws).rqd j = s.rqd j := by cases j <;> cases k <;> rfl
@[simp] theorem emitEv_ev (s : State) (k : Knob) (ws : List Half) (j : Knob) :
    (s.emitEv k ws).ev j = if j = k then s.ev j ++ ws else s.ev j := by cases j <;> cases k <;> rfl
@[simp] theorem emitEv_readPix (s : State) (k : Knob) (ws : List Half) (j : Nat) :
    (s.emitEv k ws).readPix j = s.readPix j := by cases k <;> rfl
@[simp] theorem emitEv_readFb (s : State) (k : Knob) (ws : List Half) (j : Nat) :
    (s.emitEv k ws).readFb j = s.readFb j := by cases k <;> rfl
@[simp] theorem emitEv_frame (s : State) (k : Knob) (ws : List Half) :
    (s.emitEv k ws).frame = s.frame := by cases k <;> rfl
@[simp] theorem emitEv_readCell (s : State) (k : Knob) (ws : List Half) (j : Nat) :
    (s.emitEv k ws).readCell j = s.readCell j := by cases k <;> rfl
@[simp] theorem emitEv_cells (s : State) (k : Knob) (ws : List Half) :
    (s.emitEv k ws).cells = s.cells := by cases k <;> rfl
@[simp] theorem emitEv_allDead (s : State) (k : Knob) (ws : List Half) :
    (s.emitEv k ws).allDead = s.allDead := by cases k <;> rfl

/-! ## emitTx -/

@[simp] theorem emitTx_cfg (s : State) (bs : List Byte) :
    (s.emitTx bs).cfg = s.cfg := rfl
@[simp] theorem emitTx_rqdRed (s : State) (bs : List Byte) :
    (s.emitTx bs).rqdRed = s.rqdRed := rfl
@[simp] theorem emitTx_rqdYellow (s : State) (bs : List Byte) :
    (s.emitTx bs).rqdYellow = s.rqdYellow := rfl
@[simp] theorem emitTx_evRed (s : State) (bs : List Byte) :
    (s.emitTx bs).evRed = s.evRed := rfl
@[simp] theorem emitTx_evYellow (s : State) (bs : List Byte) :
    (s.emitTx bs).evYellow = s.evYellow := rfl
@[simp] theorem emitTx_pix (s : State) (bs : List Byte) :
    (s.emitTx bs).pix = s.pix := rfl
@[simp] theorem emitTx_fb (s : State) (bs : List Byte) :
    (s.emitTx bs).fb = s.fb := rfl
@[simp] theorem emitTx_fbValid (s : State) (bs : List Byte) :
    (s.emitTx bs).fbValid = s.fbValid := rfl
@[simp] theorem emitTx_tx (s : State) (bs : List Byte) :
    (s.emitTx bs).tx = s.tx ++ bs := rfl
@[simp] theorem emitTx_grid (s : State) (bs : List Byte) :
    (s.emitTx bs).grid = s.grid := rfl
@[simp] theorem emitTx_gridValid (s : State) (bs : List Byte) :
    (s.emitTx bs).gridValid = s.gridValid := rfl
@[simp] theorem emitTx_changed (s : State) (bs : List Byte) :
    (s.emitTx bs).changed = s.changed := rfl
@[simp] theorem emitTx_err (s : State) (bs : List Byte) :
    (s.emitTx bs).err = s.err := rfl
@[simp] theorem emitTx_result (s : State) (bs : List Byte) :
    (s.emitTx bs).result = s.result := rfl
@[simp] theorem emitTx_cmdState (s : State) (bs : List Byte) :
    (s.emitTx bs).cmdState = s.cmdState := rfl
@[simp] theorem emitTx_inputs (s : State) (bs : List Byte) :
    (s.emitTx bs).inputs = s.inputs := rfl
@[simp] theorem emitTx_rqd (s : State) (bs : List Byte) (j : Knob) :
    (s.emitTx bs).rqd j = s.rqd j := by cases j <;> rfl
@[simp] theorem emitTx_ev (s : State) (bs : List Byte) (j : Knob) :
    (s.emitTx bs).ev j = s.ev j := by cases j <;> rfl
@[simp] theorem emitTx_readPix (s : State) (bs : List Byte) (j : Nat) :
    (s.emitTx bs).readPix j = s.readPix j := rfl
@[simp] theorem emitTx_readFb (s : State) (bs : List Byte) (j : Nat) :
    (s.emitTx bs).readFb j = s.readFb j := rfl
@[simp] theorem emitTx_frame (s : State) (bs : List Byte) :
    (s.emitTx bs).frame = s.frame := rfl
@[simp] theorem emitTx_readCell (s : State) (bs : List Byte) (j : Nat) :
    (s.emitTx bs).readCell j = s.readCell j := rfl
@[simp] theorem emitTx_cells (s : State) (bs : List Byte) :
    (s.emitTx bs).cells = s.cells := rfl
@[simp] theorem emitTx_allDead (s : State) (bs : List Byte) :
    (s.emitTx bs).allDead = s.allDead := rfl

/-! ## writePix -/

@[simp] theorem writePix_cfg (s : State) (i : Nat) (v : Word) :
    (s.writePix i v).cfg = s.cfg := rfl
@[simp] theorem writePix_rqdRed (s : State) (i : Nat) (v : Word) :
    (s.writePix i v).rqdRed = s.rqdRed := rfl
@[simp] theorem writePix_rqdYellow (s : State) (i : Nat) (v : Word) :
    (s.writePix i v).rqdYellow = s.rqdYellow := rfl
@[simp] theorem writePix_evRed (s : State) (i : Nat) (v : Word) :
    (s.writePix i v).evRed = s.evRed := rfl
@[simp] theorem writePix_evYellow (s : State) (i : Nat) (v : Word) :
    (s.writePix i v).evYellow = s.evYellow := rfl
@[simp] theorem writePix_pix (s : State) (i : Nat) (v : Word) :
    (s.writePix i v).pix = Memory.write pixBlank s.pix i v := rfl
@[simp] theorem writePix_fb (s : State) (i : Nat) (v : Word) :
    (s.writePix i v).fb = s.fb := rfl
@[simp] theorem writePix_fbValid (s : State) (i : Nat) (v : Word) :
    (s.writePix i v).fbValid = s.fbValid := rfl
@[simp] theorem writePix_tx (s : State) (i : Nat) (v : Word) :
    (s.writePix i v).tx = s.tx := rfl
@[simp] theorem writePix_grid (s : State) (i : Nat) (v : Word) :
    (s.writePix i v).grid = s.grid := rfl
@[simp] theorem writePix_gridValid (s : State) (i : Nat) (v : Word) :
    (s.writePix i v).gridValid = s.gridValid := rfl
@[simp] theorem writePix_changed (s : State) (i : Nat) (v : Word) :
    (s.writePix i v).changed = s.changed := rfl
@[simp] theorem writePix_err (s : State) (i : Nat) (v : Word) :
    (s.writePix i v).err = s.err := rfl
@[simp] theorem writePix_result (s : State) (i : Nat) (v : Word) :
    (s.writePix i v).result = s.result := rfl
@[simp] theorem writePix_cmdState (s : State) (i : Nat) (v : Word) :
    (s.writePix i v).cmdState = s.cmdState := rfl
@[simp] theorem writePix_inputs (s : State) (i : Nat) (v : Word) :
    (s.writePix i v).inputs = s.inputs := rfl
@[simp] theorem writePix_rqd (s : State) (i : Nat) (v : Word) (j : Knob) :
    (s.writePix i v).rqd j = s.rqd j := by cases j <;> rfl
@[simp] theorem writePix_ev (s : State) (i : Nat) (v : Word) (j : Knob) :
    (s.writePix i v).ev j = s.ev j := by cases j <;> rfl
@[simp] theorem writePix_readFb (s : State) (i : Nat) (v : Word) (j : Nat) :
    (s.writePix i v).readFb j = s.readFb j := rfl
@[simp] theorem writePix_frame (s : State) (i : Nat) (v : Word) :
    (s.writePix i v).frame = s.frame := rfl
@[simp] theorem writePix_readCell (s : State) (i : Nat) (v : Word) (j : Nat) :
    (s.writePix i v).readCell j = s.readCell j := rfl
@[simp] theorem writePix_cells (s : State) (i : Nat) (v : Word) :
    (s.writePix i v).cells = s.cells := rfl
@[simp] theorem writePix_allDead (s : State) (i : Nat) (v : Word) :
    (s.writePix i v).allDead = s.allDead := rfl

/-! ## setFrame -/

@[simp] theorem setFrame_cfg (s : State) (bs : List Byte) :
    (s.setFrame bs).cfg = s.cfg := rfl
@[simp] theorem setFrame_rqdRed (s : State) (bs : List Byte) :
    (s.setFrame bs).rqdRed = s.rqdRed := rfl
@[simp] theorem setFrame_rqdYellow (s : State) (bs : List Byte) :
    (s.setFrame bs).rqdYellow = s.rqdYellow := rfl
@[simp] theorem setFrame_evRed (s : State) (bs : List Byte) :
    (s.setFrame bs).evRed = s.evRed := rfl
@[simp] theorem setFrame_evYellow (s : State) (bs : List Byte) :
    (s.setFrame bs).evYellow = s.evYellow := rfl
@[simp] theorem setFrame_pix (s : State) (bs : List Byte) :
    (s.setFrame bs).pix = s.pix := rfl
@[simp] theorem setFrame_fb (s : State) (bs : List Byte) :
    (s.setFrame bs).fb = Memory.load 0 bs := rfl
@[simp] theorem setFrame_fbValid (s : State) (bs : List Byte) :
    (s.setFrame bs).fbValid = true := rfl
@[simp] theorem setFrame_tx (s : State) (bs : List Byte) :
    (s.setFrame bs).tx = s.tx := rfl
@[simp] theorem setFrame_grid (s : State) (bs : List Byte) :
    (s.setFrame bs).grid = s.grid := rfl
@[simp] theorem setFrame_gridValid (s : State) (bs : List Byte) :
    (s.setFrame bs).gridValid = s.gridValid := rfl
@[simp] theorem setFrame_changed (s : State) (bs : List Byte) :
    (s.setFrame bs).changed = s.changed := rfl
@[simp] theorem setFrame_err (s : State) (bs : List Byte) :
    (s.setFrame bs).err = s.err := rfl
@[simp] theorem setFrame_result (s : State) (bs : List Byte) :
    (s.setFrame bs).result = s.result := rfl
@[simp] theorem setFrame_cmdState (s : State) (bs : List Byte) :
    (s.setFrame bs).cmdState = s.cmdState := rfl
@[simp] theorem setFrame_inputs (s : State) (bs : List Byte) :
    (s.setFrame bs).inputs = s.inputs := rfl
@[simp] theorem setFrame_rqd (s : State) (bs : List Byte) (j : Knob) :
    (s.setFrame bs).rqd j = s.rqd j := by cases j <;> rfl
@[simp] theorem setFrame_ev (s : State) (bs : List Byte) (j : Knob) :
    (s.setFrame bs).ev j = s.ev j := by cases j <;> rfl
@[simp] theorem setFrame_readPix (s : State) (bs : List Byte) (j : Nat) :
    (s.setFrame bs).readPix j = s.readPix j := rfl
@[simp] theorem setFrame_readCell (s : State) (bs : List Byte) (j : Nat) :
    (s.setFrame bs).readCell j = s.readCell j := rfl
@[simp] theorem setFrame_cells (s : State) (bs : List Byte) :
    (s.setFrame bs).cells = s.cells := rfl
@[simp] theorem setFrame_allDead (s : State) (bs : List Byte) :
    (s.setFrame bs).allDead = s.allDead := rfl

/-! ## setGrid -/

@[simp] theorem setGrid_cfg (s : State) (g : List Bool) (ch : Bool) :
    (s.setGrid g ch).cfg = s.cfg := rfl
@[simp] theorem setGrid_rqdRed (s : State) (g : List Bool) (ch : Bool) :
    (s.setGrid g ch).rqdRed = s.rqdRed := rfl
@[simp] theorem setGrid_rqdYellow (s : State) (g : List Bool) (ch : Bool) :
    (s.setGrid g ch).rqdYellow = s.rqdYellow := rfl
@[simp] theorem setGrid_evRed (s : State) (g : List Bool) (ch : Bool) :
    (s.setGrid g ch).evRed = s.evRed := rfl
@[simp] theorem setGrid_evYellow (s : State) (g : List Bool) (ch : Bool) :
    (s.setGrid g ch).evYellow = s.evYellow := rfl
@[simp] theorem setGrid_pix (s : State) (g : List Bool) (ch : Bool) :
    (s.setGrid g ch).pix = s.pix := rfl
@[simp] theorem setGrid_fb (s : State) (g : List Bool) (ch : Bool) :
    (s.setGrid g ch).fb = s.fb := rfl
@[simp] theorem setGrid_fbValid (s : State) (g : List Bool) (ch : Bool) :
    (s.setGrid g ch).fbValid = s.fbValid := rfl
@[simp] theorem setGrid_tx (s : State) (g : List Bool) (ch : Bool) :
    (s.setGrid g ch).tx = s.tx := rfl
@[simp] theorem setGrid_grid (s : State) (g : List Bool) (ch : Bool) :
    (s.setGrid g ch).grid = Memory.load 0 g := rfl
@[simp] theorem setGrid_gridValid (s : State) (g : List Bool) (ch : Bool) :
    (s.setGrid g ch).gridValid = true := rfl
@[simp] theorem setGrid_changed (s : State) (g : List Bool) (ch : Bool) :
    (s.setGrid g ch).changed = ch := rfl
@[simp] theorem setGrid_err (s : State) (g : List Bool) (ch : Bool) :
    (s.setGrid g ch).err = s.err := rfl
@[simp] theorem setGrid_result (s : State) (g : List Bool) (ch : Bool) :
    (s.setGrid g ch).result = s.result := rfl
@[simp] theorem setGrid_cmdState (s : State) (g : List Bool) (ch : Bool) :
    (s.setGrid g ch).cmdState = s.cmdState := rfl
@[simp] theorem setGrid_inputs (s : State) (g : List Bool) (ch : Bool) :
    (s.setGrid g ch).inputs = s.inputs := rfl
@[simp] theorem setGrid_rqd (s : State) (g : List Bool) (ch : Bool) (j : Knob) :
    (s.setGrid g ch).rqd j = s.rqd j := by cases j <;> rfl
@[simp] theorem setGrid_ev (s : State) (g : List Bool) (ch : Bool) (j : Knob) :
    (s.setGrid g ch).ev j = s.ev j := by cases j <;> rfl
@[simp] theorem setGrid_readPix (s : State) (g : List Bool) (ch : Bool) (j : Nat) :
    (s.setGrid g ch).readPix j = s.readPix j := rfl
@[simp] theorem setGrid_readFb (s : State) (g : List Bool) (ch : Bool) (j : Nat) :
    (s.setGrid g ch).readFb j = s.readFb j := rfl
@[simp] theorem setGrid_frame (s : State) (g : List Bool) (ch : Bool) :
    (s.setGrid g ch).frame = s.frame := rfl

/-! ## setResponse -/

@[simp] theorem setResponse_cfg (s : State) (e : BitVec 4) (r : Word) :
    (s.setResponse e r).cfg = s.cfg := rfl
@[simp] theorem setResponse_rqdRed (s : State) (e : BitVec 4) (r : Word) :
    (s.setResponse e r).rqdRed = s.rqdRed := rfl
@[simp] theorem setResponse_rqdYellow (s : State) (e : BitVec 4) (r : Word) :
    (s.setResponse e r).rqdYellow = s.rqdYellow := rfl
@[simp] theorem setResponse_evRed (s : State) (e : BitVec 4) (r : Word) :
    (s.setResponse e r).evRed = s.evRed := rfl
@[simp] theorem setResponse_evYellow (s : State) (e : BitVec 4) (r : Word) :
    (s.setResponse e r).evYellow = s.evYellow := rfl
@[simp] theorem setResponse_pix (s : State) (e : BitVec 4) (r : Word) :
    (s.setResponse e r).pix = s.pix := rfl
@[simp] theorem setResponse_fb (s : State) (e : BitVec 4) (r : Word) :
    (s.setResponse e r).fb = s.fb := rfl
@[simp] theorem setResponse_fbValid (s : State) (e : BitVec 4) (r : Word) :
    (s.setResponse e r).fbValid = s.fbValid := rfl
@[simp] theorem setResponse_tx (s : State) (e : BitVec 4) (r : Word) :
    (s.setResponse e r).tx = s.tx := rfl
@[simp] theorem setResponse_grid (s : State) (e : BitVec 4) (r : Word) :
    (s.setResponse e r).grid = s.grid := rfl
@[simp] theorem setResponse_gridValid (s : State) (e : BitVec 4) (r : Word) :
    (s.setResponse e r).gridValid = s.gridValid := rfl
@[simp] theorem setResponse_changed (s : State) (e : BitVec 4) (r : Word) :
    (s.setResponse e r).changed = s.changed := rfl
@[simp] theorem setResponse_err (s : State) (e : BitVec 4) (r : Word) :
    (s.setResponse e r).err = e := rfl
@[simp] theorem setResponse_result (s : State) (e : BitVec 4) (r : Word) :
    (s.setResponse e r).result = r := rfl
@[simp] theorem setResponse_cmdState (s : State) (e : BitVec 4) (r : Word) :
    (s.setResponse e r).cmdState = s.cmdState := rfl
@[simp] theorem setResponse_inputs (s : State) (e : BitVec 4) (r : Word) :
    (s.setResponse e r).inputs = s.inputs := rfl
@[simp] theorem setResponse_rqd (s : State) (e : BitVec 4) (r : Word) (j : Knob) :
    (s.setResponse e r).rqd j = s.rqd j := by cases j <;> rfl
@[simp] theorem setResponse_ev (s : State) (e : BitVec 4) (r : Word) (j : Knob) :
    (s.setResponse e r).ev j = s.ev j := by cases j <;> rfl
@[simp] theorem setResponse_readPix (s : State) (e : BitVec 4) (r : Word) (j : Nat) :
    (s.setResponse e r).readPix j = s.readPix j := rfl
@[simp] theorem setResponse_readFb (s : State) (e : BitVec 4) (r : Word) (j : Nat) :
    (s.setResponse e r).readFb j = s.readFb j := rfl
@[simp] theorem setResponse_frame (s : State) (e : BitVec 4) (r : Word) :
    (s.setResponse e r).frame = s.frame := rfl
@[simp] theorem setResponse_readCell (s : State) (e : BitVec 4) (r : Word) (j : Nat) :
    (s.setResponse e r).readCell j = s.readCell j := rfl
@[simp] theorem setResponse_cells (s : State) (e : BitVec 4) (r : Word) :
    (s.setResponse e r).cells = s.cells := rfl
@[simp] theorem setResponse_allDead (s : State) (e : BitVec 4) (r : Word) :
    (s.setResponse e r).allDead = s.allDead := rfl

/-! ## setHung -/

@[simp] theorem setHung_cfg (s : State) :
    s.setHung.cfg = s.cfg := rfl
@[simp] theorem setHung_rqdRed (s : State) :
    s.setHung.rqdRed = s.rqdRed := rfl
@[simp] theorem setHung_rqdYellow (s : State) :
    s.setHung.rqdYellow = s.rqdYellow := rfl
@[simp] theorem setHung_evRed (s : State) :
    s.setHung.evRed = s.evRed := rfl
@[simp] theorem setHung_evYellow (s : State) :
    s.setHung.evYellow = s.evYellow := rfl
@[simp] theorem setHung_pix (s : State) :
    s.setHung.pix = s.pix := rfl
@[simp] theorem setHung_fb (s : State) :
    s.setHung.fb = s.fb := rfl
@[simp] theorem setHung_fbValid (s : State) :
    s.setHung.fbValid = s.fbValid := rfl
@[simp] theorem setHung_tx (s : State) :
    s.setHung.tx = s.tx := rfl
@[simp] theorem setHung_grid (s : State) :
    s.setHung.grid = s.grid := rfl
@[simp] theorem setHung_gridValid (s : State) :
    s.setHung.gridValid = s.gridValid := rfl
@[simp] theorem setHung_changed (s : State) :
    s.setHung.changed = s.changed := rfl
@[simp] theorem setHung_err (s : State) :
    s.setHung.err = s.err := rfl
@[simp] theorem setHung_result (s : State) :
    s.setHung.result = s.result := rfl
@[simp] theorem setHung_cmdState (s : State) :
    s.setHung.cmdState = .hung := rfl
@[simp] theorem setHung_inputs (s : State) :
    s.setHung.inputs = s.inputs := rfl
@[simp] theorem setHung_rqd (s : State) (j : Knob) :
    s.setHung.rqd j = s.rqd j := by cases j <;> rfl
@[simp] theorem setHung_ev (s : State) (j : Knob) :
    s.setHung.ev j = s.ev j := by cases j <;> rfl
@[simp] theorem setHung_readPix (s : State) (j : Nat) :
    s.setHung.readPix j = s.readPix j := rfl
@[simp] theorem setHung_readFb (s : State) (j : Nat) :
    s.setHung.readFb j = s.readFb j := rfl
@[simp] theorem setHung_frame (s : State) :
    s.setHung.frame = s.frame := rfl
@[simp] theorem setHung_readCell (s : State) (j : Nat) :
    s.setHung.readCell j = s.readCell j := rfl
@[simp] theorem setHung_cells (s : State) :
    s.setHung.cells = s.cells := rfl
@[simp] theorem setHung_allDead (s : State) :
    s.setHung.allDead = s.allDead := rfl

/-! ## setInputs -/

@[simp] theorem setInputs_cfg (s : State) (l : List Input) :
    (s.setInputs l).cfg = s.cfg := rfl
@[simp] theorem setInputs_rqdRed (s : State) (l : List Input) :
    (s.setInputs l).rqdRed = s.rqdRed := rfl
@[simp] theorem setInputs_rqdYellow (s : State) (l : List Input) :
    (s.setInputs l).rqdYellow = s.rqdYellow := rfl
@[simp] theorem setInputs_evRed (s : State) (l : List Input) :
    (s.setInputs l).evRed = s.evRed := rfl
@[simp] theorem setInputs_evYellow (s : State) (l : List Input) :
    (s.setInputs l).evYellow = s.evYellow := rfl
@[simp] theorem setInputs_pix (s : State) (l : List Input) :
    (s.setInputs l).pix = s.pix := rfl
@[simp] theorem setInputs_fb (s : State) (l : List Input) :
    (s.setInputs l).fb = s.fb := rfl
@[simp] theorem setInputs_fbValid (s : State) (l : List Input) :
    (s.setInputs l).fbValid = s.fbValid := rfl
@[simp] theorem setInputs_tx (s : State) (l : List Input) :
    (s.setInputs l).tx = s.tx := rfl
@[simp] theorem setInputs_grid (s : State) (l : List Input) :
    (s.setInputs l).grid = s.grid := rfl
@[simp] theorem setInputs_gridValid (s : State) (l : List Input) :
    (s.setInputs l).gridValid = s.gridValid := rfl
@[simp] theorem setInputs_changed (s : State) (l : List Input) :
    (s.setInputs l).changed = s.changed := rfl
@[simp] theorem setInputs_err (s : State) (l : List Input) :
    (s.setInputs l).err = s.err := rfl
@[simp] theorem setInputs_result (s : State) (l : List Input) :
    (s.setInputs l).result = s.result := rfl
@[simp] theorem setInputs_cmdState (s : State) (l : List Input) :
    (s.setInputs l).cmdState = s.cmdState := rfl
@[simp] theorem setInputs_inputs (s : State) (l : List Input) :
    (s.setInputs l).inputs = l := rfl
@[simp] theorem setInputs_rqd (s : State) (l : List Input) (j : Knob) :
    (s.setInputs l).rqd j = s.rqd j := by cases j <;> rfl
@[simp] theorem setInputs_ev (s : State) (l : List Input) (j : Knob) :
    (s.setInputs l).ev j = s.ev j := by cases j <;> rfl
@[simp] theorem setInputs_readPix (s : State) (l : List Input) (j : Nat) :
    (s.setInputs l).readPix j = s.readPix j := rfl
@[simp] theorem setInputs_readFb (s : State) (l : List Input) (j : Nat) :
    (s.setInputs l).readFb j = s.readFb j := rfl
@[simp] theorem setInputs_frame (s : State) (l : List Input) :
    (s.setInputs l).frame = s.frame := rfl
@[simp] theorem setInputs_readCell (s : State) (l : List Input) (j : Nat) :
    (s.setInputs l).readCell j = s.readCell j := rfl
@[simp] theorem setInputs_cells (s : State) (l : List Input) :
    (s.setInputs l).cells = s.cells := rfl
@[simp] theorem setInputs_allDead (s : State) (l : List Input) :
    (s.setInputs l).allDead = s.allDead := rfl

end Sys2Proof.Machine
end

