-- ==== Sys2Proof/Laws/Ops.lean ====
section
/-! SUPPORT. What each shared operation can do, said once: the guards, the index spaces as the state's accessors see them, the choice
of the next input, and what each meaning answers when it answers a next state. -/

namespace Sys2Proof.Machine

/-! ## Guards -/

theorem guardConfig_of_valid {s : State} (h : s.cfg.valid = true) (body : State → Outcome) : guardConfig s body = body s := by
  simp [guardConfig, h]

theorem guardConfig_of_invalid {s : State} (h : s.cfg.valid = false) (body : State → Outcome) :
    guardConfig s body = .refused .badConfiguration := by
  simp [guardConfig, h]

theorem guardConfig_next {s t : State} {body : State → Outcome} (h : guardConfig s body = .next t) :
    s.cfg.valid = true ∧ body s = .next t := by
  unfold guardConfig at h
  split at h
  · exact ⟨‹_›, h⟩
  · simp at h

theorem command_of_ready {s : State} (h : s.Ready) (body : State → Outcome) : command s body = body s := by
  simp [command, guardConfig_of_valid h.1, h.2]

theorem command_of_hung {s : State} (hv : s.cfg.valid = true) (h : s.cmdState = .hung) (body : State → Outcome) :
    command s body = .fault .commandPortHung := by
  simp [command, guardConfig_of_valid hv, h]

/-- A command that answers a next state was accepted, and its body answered that state. -/
theorem command_next {s t : State} {body : State → Outcome} (h : command s body = .next t) :
    s.Ready ∧ body s = .next t := by
  obtain ⟨hv, h⟩ := guardConfig_next h
  cases hc : s.cmdState with
  | idle => rw [hc] at h; exact ⟨⟨hv, hc⟩, h⟩
  | hung => rw [hc] at h; simp at h

@[simp] theorem respond_next {s t : State} {r : Word} : respond s r = .next t ↔ t = s.setResponse 0 r := by
  simp only [respond, errBits, Host.Outcome.next.injEq]
  exact eq_comm

@[simp] theorem raiseError_next {s t : State} {c : ErrCode} :
    raiseError s c = .next t ↔ t = s.setResponse (errBits c) 0 := by
  simp only [raiseError, Host.Outcome.next.injEq]
  exact eq_comm

@[simp] theorem neverCompletes_next {s t : State} : neverCompletes s = .next t ↔ t = s.setHung := by
  simp only [neverCompletes, Host.Outcome.next.injEq]
  exact eq_comm

theorem withGrid_next {s t : State} {body : List Bool → Outcome} (h : withGrid s body = .next t) :
    (s.gridValid = false ∧ t = s.setResponse 5 0) ∨
      (s.gridValid = true ∧ ∃ g, s.cells = some g ∧ body g = .next t) := by
  unfold withGrid at h
  split at h
  · rename_i hg
    split at h
    · rename_i g hc; exact Or.inr ⟨hg, g, hc, h⟩
    · simp at h
  · rename_i hg; exact Or.inl ⟨by simpa using hg, raiseError_next.1 h⟩

/-! ## Index spaces through the state -/

theorem readPix_writePix {s : State} (h : Memory.wf pixBlank s.pix = true) (i j : Nat) (v : Word) :
    (s.writePix i v).readPix j = if j = i then v else s.readPix j := by
  simp only [State.readPix, writePix_pix, read_write h]
  split <;> rfl

theorem readFb_setFrame (s : State) (bs : List Byte) (j : Nat) : (s.setFrame bs).readFb j = bs[j]? := by
  simp [State.readFb, Memory.read, fbBlank, find_load]

theorem frame_setFrame (s : State) (bs : List Byte) (h : bs.length = s.cfg.frameLen) : (s.setFrame bs).frame = some bs := by
  simp only [State.frame, setFrame_cfg, setFrame_fb, ← h, dump_load]

theorem readCell_setGrid (s : State) (g : List Bool) (ch : Bool) (j : Nat) : (s.setGrid g ch).readCell j = g[j]? := by
  simp [State.readCell, Memory.read, gridBlank, find_load]

theorem cells_setGrid (s : State) (g : List Bool) (ch : Bool) (h : g.length = s.cfg.cells) :
    (s.setGrid g ch).cells = some g := by
  simp only [State.cells, setGrid_cfg, setGrid_grid, ← h, dump_load]

/-- All of FB, when it is there, is what each byte reads as. -/
theorem frame_spec {s : State} {bs : List Byte} (h : s.frame = some bs) :
    bs.length = s.cfg.frameLen ∧ ∀ j < s.cfg.frameLen, s.readFb j = bs[j]? := by
  obtain ⟨h1, h2⟩ := dump_spec h
  exact ⟨h1, fun j hj => by simpa [State.readFb, Memory.read, fbBlank] using h2 j (Nat.zero_le j) (by omega)⟩

/-- All of GRID, when it is there, is what each cell reads as. -/
theorem cells_spec {s : State} {g : List Bool} (h : s.cells = some g) :
    g.length = s.cfg.cells ∧ ∀ j < s.cfg.cells, s.readCell j = g[j]? := by
  obtain ⟨h1, h2⟩ := dump_spec h
  exact ⟨h1, fun j hj => by simpa [State.readCell, Memory.read, gridBlank] using h2 j (Nat.zero_le j) (by omega)⟩

/-! ## The next input -/

/-- With the port IDLE the oldest input is taken. -/
theorem fetch_idle {s : State} {i : Input} {l : List Input} (h : s.cmdState = .idle) (hi : s.inputs = i :: l) :
    fetch s = some (i, l) := by
  simp [fetch, h, hi]

theorem fetch_none {s : State} : fetch s = none ↔ s.inputs = [] := by
  unfold fetch
  split
  · simp_all
  · simp_all
  · split <;> simp_all

theorem firstReady_mem {l : List Input} {i : Input} {r : List Input} (h : firstReady l = some (i, r)) : i ∈ l ∧ r ⊆ l := by
  induction l generalizing r with
  | nil => cases h
  | cons a l ih =>
    cases a with
    | pin p => cases h; exact ⟨List.mem_cons_self, List.subset_cons_self _ _⟩
    | reset => cases h; exact ⟨List.mem_cons_self, List.subset_cons_self _ _⟩
    | cmd cw arg =>
      simp only [firstReady] at h
      split at h
      · cases h
      · rename_i h'; cases h; exact ⟨List.mem_cons_of_mem _ (ih h').1, fun x hx => List.mem_cons_of_mem _ ((ih h').2 hx)⟩
      · rename_i h'; cases h; exact ⟨List.mem_cons_of_mem _ (ih h').1, List.cons_subset_cons _ (ih h').2⟩

/-- A step takes an input that was presented, and leaves no other than was presented. -/
theorem fetch_mem {s : State} {i : Input} {l : List Input} (h : fetch s = some (i, l)) : i ∈ s.inputs ∧ l ⊆ s.inputs := by
  unfold fetch at h
  split at h
  · cases h
  · rename_i hin; cases h; rw [hin]; exact ⟨List.mem_cons_self, List.subset_cons_self _ _⟩
  · rename_i hin; rw [hin]
    split at h
    · rename_i h'; cases h; exact firstReady_mem h'
    · cases h; exact ⟨List.mem_cons_self, List.subset_cons_self _ _⟩

/-- Commands that wait before an input of another agent. -/
theorem firstReady_append (cs : List (Word × Word)) (i : Input) (l : List Input) (hi : ∀ cw arg, i ≠ .cmd cw arg) :
    firstReady (cs.map (fun c => .cmd c.1 c.2) ++ i :: l) =
      some (i, if i = .reset then l else cs.map (fun c => .cmd c.1 c.2) ++ l) := by
  induction cs with
  | nil =>
    cases i with
    | pin p => simp [firstReady]
    | cmd cw arg => exact absurd rfl (hi cw arg)
    | reset => simp [firstReady]
  | cons c cs ih =>
    simp only [List.map_cons, List.cons_append, firstReady, ih]
    cases i with
    | pin p => simp
    | cmd cw arg => exact absurd rfl (hi cw arg)
    | reset => simp

/-- Only commands are waiting. -/
theorem firstReady_commands (cs : List (Word × Word)) : firstReady (cs.map fun c => .cmd c.1 c.2) = none := by
  induction cs with
  | nil => rfl
  | cons c cs ih => simp [firstReady, ih]

/-! ## What a meaning answers -/

theorem execNop_next {s t : State} (h : execNop s = .next t) : s.Ready ∧ t = s.setResponse 0 0 := by
  obtain ⟨hr, h⟩ := command_next h
  exact ⟨hr, respond_next.1 h⟩

theorem execReserved_next (cw : Word) {s t : State} (h : execReserved cw s = .next t) :
    s.Ready ∧ t = s.setResponse 1 0 := by
  obtain ⟨hr, h⟩ := command_next h
  exact ⟨hr, raiseError_next.1 h⟩

theorem execPixWrite_next {idx : Half} {v : Word} {s t : State} (h : execPixWrite idx v s = .next t) :
    s.Ready ∧ (s.cfg.nLeds ≤ idx.toNat ∧ t = s.setResponse 2 0 ∨
      idx.toNat < s.cfg.nLeds ∧ t = (s.writePix idx.toNat v).setResponse 0 0) := by
  obtain ⟨hr, h⟩ := command_next h
  refine ⟨hr, ?_⟩
  split at h
  · exact Or.inl ⟨‹_›, raiseError_next.1 h⟩
  · exact Or.inr ⟨by omega, respond_next.1 h⟩

theorem execLedEncode_next {n : Word} {s t : State} (h : execLedEncode n s = .next t) :
    s.Ready ∧ (s.cfg.nLeds < n.toNat ∧ t = s.setResponse 3 0 ∨
      n.toNat ≤ s.cfg.nLeds ∧ t = (s.setFrame (frameBytes s n.toNat)).setResponse 0 0) := by
  obtain ⟨hr, h⟩ := command_next h
  refine ⟨hr, ?_⟩
  split at h
  · exact Or.inl ⟨‹_›, raiseError_next.1 h⟩
  · exact Or.inr ⟨by omega, respond_next.1 h⟩

theorem execLedTx_next {s t : State} (h : execLedTx s = .next t) :
    s.Ready ∧ (s.fbValid = false ∧ t = s.setResponse 4 0 ∨
      s.fbValid = true ∧ ∃ bs, s.frame = some bs ∧ t = (s.emitTx bs).setResponse 0 0) := by
  obtain ⟨hr, h⟩ := command_next h
  refine ⟨hr, ?_⟩
  split at h
  · split at h
    · rename_i bs hb; exact Or.inr ⟨‹_›, bs, hb, respond_next.1 h⟩
    · simp at h
  · rename_i hb; exact Or.inl ⟨by simpa using hb, raiseError_next.1 h⟩

theorem execGolReset_next {seed : Word} {s t : State} (h : execGolReset seed s = .next t) :
    s.Ready ∧ (seed = 0 ∧ t = s.setHung ∨
      seed ≠ 0 ∧ t = (s.setGrid (seededGrid s.cfg seed) false).setResponse 0 0) := by
  obtain ⟨hr, h⟩ := command_next h
  refine ⟨hr, ?_⟩
  split at h
  · exact Or.inl ⟨‹_›, neverCompletes_next.1 h⟩
  · exact Or.inr ⟨‹_›, respond_next.1 h⟩

theorem execGolStep_next {s t : State} (h : execGolStep s = .next t) :
    s.Ready ∧ (s.gridValid = false ∧ t = s.setResponse 5 0 ∨
      s.gridValid = true ∧ ∃ g, s.cells = some g ∧
        t = (s.setGrid (nextGrid s.cfg g) (gridChanged g (nextGrid s.cfg g))).setResponse 0
          (bitWord (gridChanged g (nextGrid s.cfg g)))) := by
  obtain ⟨hr, h⟩ := command_next h
  refine ⟨hr, (withGrid_next h).imp id ?_⟩
  rintro ⟨hg, g, hc, h⟩
  exact ⟨hg, g, hc, respond_next.1 h⟩

theorem execGolRead_next {x y : Half} {s t : State} (h : execGolRead x y s = .next t) :
    s.Ready ∧ (s.gridValid = false ∧ t = s.setResponse 5 0 ∨
      s.gridValid = true ∧ ∃ b, s.readCell (cellNumber s.cfg (coord x) (coord y)) = some b ∧
        t = s.setResponse 0 (bitWord b)) := by
  obtain ⟨hr, h⟩ := command_next h
  refine ⟨hr, ?_⟩
  split at h
  · split at h
    · rename_i b hb; exact Or.inr ⟨‹_›, b, hb, respond_next.1 h⟩
    · simp at h
  · rename_i hg; exact Or.inl ⟨by simpa using hg, raiseError_next.1 h⟩

theorem execGolStatus_next {s t : State} (h : execGolStatus s = .next t) :
    s.Ready ∧ (s.gridValid && s.cells.isNone) = false ∧
      t = s.setResponse 0 (statusWord s.gridValid s.allDead s.changed) := by
  obtain ⟨hr, h⟩ := command_next h
  refine ⟨hr, ?_⟩
  split at h
  · simp at h
  · rename_i hc; exact ⟨Bool.eq_false_of_not_eq_true hc, respond_next.1 h⟩

theorem execRqdSample_next {k : Knob} {a b c : Bool} {s t : State} (h : execRqdSample k a b c s = .next t) :
    s.cfg.valid = true ∧ (s.rqd k).ok (s.cfg.notch k) = true ∧
      t = (s.setRqd k (sampleRqd s.cfg k a b c (s.rqd k)).1).emitEv k (sampleRqd s.cfg k a b c (s.rqd k)).2 := by
  obtain ⟨hv, h⟩ := guardConfig_next h
  refine ⟨hv, ?_⟩
  split at h
  · exact ⟨‹_›, (Host.Outcome.next.inj h).symm⟩
  · simp at h

theorem resetEvent_next {s t : State} (h : resetEvent s = .next t) :
    s.cfg.valid = true ∧ t = (State.resetWith s.cfg).setInputs s.inputs := by
  obtain ⟨hv, h⟩ := guardConfig_next h
  exact ⟨hv, (Host.Outcome.next.inj h).symm⟩

/-- Everything a step can do when it answers a next state. -/
theorem step_next {s t : State} (h : step s = .next t) :
    (s.inputs = [] ∧ s.cfg.valid = true ∧ t = s) ∨
      (∃ i rest instr, fetch s = some (i, rest) ∧ decode i = some instr ∧ exec instr (s.setInputs rest) = .next t) ∨
      (∃ rest, fetch s = some (.reset, rest) ∧ s.cfg.valid = true ∧ t = (State.resetWith s.cfg).setInputs rest) := by
  unfold step at h
  split at h
  · rename_i hf
    obtain ⟨hv, h⟩ := guardConfig_next h
    exact Or.inl ⟨fetch_none.1 hf, hv, (Host.Outcome.next.inj h).symm⟩
  · rename_i i rest hf
    split at h
    · rename_i instr hd; exact Or.inr (Or.inl ⟨i, rest, instr, hf, hd, h⟩)
    · rename_i hd
      cases i with
      | pin p => simp [decode] at hd
      | cmd cw arg => simp [decode] at hd
      | reset =>
        obtain ⟨hv, rfl⟩ := resetEvent_next h
        exact Or.inr (Or.inr ⟨rest, hf, hv, rfl⟩)

/-! ## The serial rate, which nothing reads (41_led_encoder.md R148) -/

@[simp] theorem withSerialRate_valid (s : State) (r : Option Nat) : (s.withSerialRate r).cfg.valid = s.cfg.valid := rfl
@[simp] theorem withSerialRate_cmdState (s : State) (r : Option Nat) : (s.withSerialRate r).cmdState = s.cmdState := rfl
@[simp] theorem withSerialRate_fetch (s : State) (r : Option Nat) : fetch (s.withSerialRate r) = fetch s := rfl
@[simp] theorem withSerialRate_frame (s : State) (r : Option Nat) : (s.withSerialRate r).frame = s.frame := rfl
@[simp] theorem withSerialRate_cells (s : State) (r : Option Nat) : (s.withSerialRate r).cells = s.cells := rfl
@[simp] theorem withSerialRate_readCell (s : State) (r : Option Nat) (c : Nat) : (s.withSerialRate r).readCell c = s.readCell c := rfl
theorem withSerialRate_setInputs (s : State) (r : Option Nat) (l : List Input) :
    (s.withSerialRate r).setInputs l = (s.setInputs l).withSerialRate r := rfl

end Sys2Proof.Machine
end

