-- ==== Sys2Proof/Laws/PerInstr.lean ====
section
/-! SUPPORT. The family TableRow: the words the encoder writes for an instruction have the fixed bits that spec/opcode_table.json
gives its row (match and mask of the command word; for RQD.SAMPLE the four bits k c b a; for the reserved row its note). -/

namespace Sys2Proof.Laws

/-- Concatenation of words, as numbers. -/
theorem toNat_append_add {m n : Nat} (x : BitVec m) (y : BitVec n) : (x ++ y).toNat = x.toNat * 2 ^ n + y.toNat := by
  rw [BitVec.toNat_append, ← Nat.shiftLeft_add_eq_or_of_lt y.isLt, Nat.shiftLeft_eq]

/-- The four bits of a PIN pattern (30_encoding.md R75). -/
theorem pinWord_bits (k : Knob) (a b c : Bool) :
    (pinWord k a b c).getLsbD 3 = decide (k = .yellow) ∧ (pinWord k a b c).getLsbD 2 = c ∧
      (pinWord k a b c).getLsbD 1 = b ∧ (pinWord k a b c).getLsbD 0 = a := by
  cases k <;> cases a <;> cases b <;> cases c <;> decide

end Sys2Proof.Laws

namespace Sys2Proof.Laws.TableRow

/-- The row's match and mask, transcribed from spec/opcode_table.json; none for a row that is not given by them. -/
def fixedBits : Instr → Option (Word × Word)
  | .nop => some (0x00000000, 0xFFFFFFFF)
  | .pixWrite _ _ => some (0x00000001, 0x0000FFFF)
  | .ledEncode _ => some (0x00000002, 0xFFFFFFFF)
  | .ledTx => some (0x00000003, 0xFFFFFFFF)
  | .golReset _ => some (0x00000004, 0xFFFFFFFF)
  | .golStep => some (0x00000005, 0xFFFFFFFF)
  | .golRead _ _ => some (0x00000006, 0xFFFFFFFF)
  | .golStatus => some (0x00000007, 0xFFFFFFFF)
  | .rqdSample _ _ _ _ => none
  | .reserved _ => none

/-- The encoded input has its row's fixed bits. -/
def Statement (i : Instr) : Prop :=
  i.wf = true →
    match i, encode i with
    | .rqdSample k a b c, .pin p =>
      p.getLsbD 3 = decide (k = .yellow) ∧ p.getLsbD 2 = c ∧ p.getLsbD 1 = b ∧ p.getLsbD 0 = a
    | .reserved _, .cmd cw _ => illegalWord cw = true
    | i, .cmd cw _ => ∃ m, fixedBits i = some m ∧ cw &&& m.2 = m.1
    | _, _ => False

theorem nop : Statement .nop := fun _ => ⟨_, rfl, rfl⟩

theorem pixWrite (idx : Half) (value : Word) : Statement (.pixWrite idx value) := by
  intro _
  refine ⟨_, rfl, ?_⟩
  show (idx ++ 1#16) &&& 0x0000FFFF#32 = 1#32
  apply BitVec.eq_of_toNat_eq
  rw [BitVec.toNat_and, toNat_append_add, show (0x0000FFFF#32).toNat = 2 ^ 16 - 1 from rfl, Nat.and_two_pow_sub_one_eq_mod]
  have h1 : (1#16).toNat = 1 := rfl
  have h2 : (1#32).toNat = 1 := rfl
  omega

theorem ledEncode (count : Word) : Statement (.ledEncode count) := fun _ => ⟨_, rfl, rfl⟩

theorem ledTx : Statement .ledTx := fun _ => ⟨_, rfl, rfl⟩

theorem golReset (seed : Word) : Statement (.golReset seed) := fun _ => ⟨_, rfl, rfl⟩

theorem golStep : Statement .golStep := fun _ => ⟨_, rfl, rfl⟩

theorem golRead (x y : Half) : Statement (.golRead x y) := fun _ => ⟨_, rfl, rfl⟩

theorem golStatus : Statement .golStatus := fun _ => ⟨_, rfl, rfl⟩

theorem rqdSample (k : Knob) (a b c : Bool) : Statement (.rqdSample k a b c) := fun _ => pinWord_bits k a b c

theorem reserved (cw : Word) : Statement (.reserved cw) := fun h => h

end Sys2Proof.Laws.TableRow
end

