-- ==== Sys2Proof/Laws/Encoding.lean ====
section
/-! SUPPORT. The fields of a command word as numbers, what each command word decodes to, and what an illegal word does. -/

namespace Sys2Proof.Laws

open Sys2Proof.Machine

theorem opcOf_toNat (cw : Word) : (opcOf cw).toNat = cw.toNat % 16 := by
  simp [opcOf, BitVec.extractLsb'_toNat]

theorem rsvOf_toNat (cw : Word) : (rsvOf cw).toNat = cw.toNat / 16 % 4096 := by
  simp [rsvOf, BitVec.extractLsb'_toNat, Nat.shiftRight_eq_div_pow]

theorem idxOf_toNat (cw : Word) : (idxOf cw).toNat = cw.toNat / 65536 := by
  have := cw.isLt
  simp [idxOf, BitVec.extractLsb'_toNat, Nat.shiftRight_eq_div_pow]
  omega

theorem bv_ne_zero {n} (x : BitVec n) : x ≠ 0 ↔ x.toNat ≠ 0 := by
  simp [BitVec.toNat_eq]

theorem opc_ne {cw : Word} (n : BitVec 4) : opcOf cw ≠ n ↔ cw.toNat % 16 ≠ n.toNat := by
  rw [← opcOf_toNat, ne_eq, BitVec.toNat_eq]

/-- An illegal word decodes to the reserved row. -/
theorem decode_illegal {cw : Word} (h : illegalWord cw = true) (arg : Word) : decodeCmd cw arg = .reserved cw := by
  simp [illegalWord] at h
  unfold decodeCmd
  split
  · rfl
  · split
    · rfl
    · split
      · rfl
      · rename_i h1 h2 h3
        rw [opcOf_toNat] at h1
        rw [bv_ne_zero, rsvOf_toNat] at h2
        rw [bv_ne_zero, opc_ne, idxOf_toNat] at h3
        have : BitVec.toNat (1 : BitVec 4) = 1 := rfl
        omega

/-- A legal word is one of the seven fixed words or a PIX.WRITE word. -/
theorem legal_cases {cw : Word} (h : illegalWord cw = false) :
    (∃ n : Nat, n < 8 ∧ n ≠ 1 ∧ cw = BitVec.ofNat 32 n) ∨ ∃ idx : Half, cw = idx ++ 0x0001#16 := by
  simp [illegalWord] at h
  have := cw.isLt
  by_cases h1 : cw.toNat % 16 = 1
  · right
    refine ⟨BitVec.ofNat 16 (cw.toNat / 65536), ?_⟩
    apply BitVec.eq_of_toNat_eq
    rw [toNat_append_add]
    simp
    omega
  · left
    refine ⟨cw.toNat, by omega, by omega, by simp⟩

theorem decode_pix (idx : Half) (arg : Word) : decodeCmd (idx ++ 0x0001#16) arg = .pixWrite idx arg := by
  have e : (idx ++ 0x0001#16).toNat = idx.toNat * 65536 + 1 := by rw [toNat_append_add]; rfl
  have := idx.isLt
  have ho : opcOf (idx ++ 0x0001#16) = 1 := by
    apply BitVec.eq_of_toNat_eq; rw [opcOf_toNat, e]; show _ = 1; omega
  have hr : rsvOf (idx ++ 0x0001#16) = 0 := by
    apply BitVec.eq_of_toNat_eq; rw [rsvOf_toNat, e]; show _ = 0; omega
  have hi : idxOf (idx ++ 0x0001#16) = idx := by
    apply BitVec.eq_of_toNat_eq; rw [idxOf_toNat, e]; omega
  unfold decodeCmd
  rw [ho, hr, hi]
  rfl

theorem argLow_append (x y : Half) : argLow (y ++ x) = x := by
  apply BitVec.eq_of_toNat_eq
  have := x.isLt
  simp only [argLow, BitVec.extractLsb'_toNat, toNat_append_add]
  simp; omega

theorem argHigh_append (x y : Half) : argHigh (y ++ x) = y := by
  apply BitVec.eq_of_toNat_eq
  have := x.isLt
  have := y.isLt
  simp only [argHigh, BitVec.extractLsb'_toNat, toNat_append_add, Nat.shiftRight_eq_div_pow]
  omega

theorem append_arg (w : Word) : argHigh w ++ argLow w = w := by
  apply BitVec.eq_of_toNat_eq
  have := w.isLt
  rw [toNat_append_add]
  simp only [argHigh, argLow, BitVec.extractLsb'_toNat, Nat.shiftRight_eq_div_pow]
  omega

/-- A word with the operation code n other than 1 that is not the word of n is illegal. -/
theorem opc_illegal {cw : Word} (n : BitVec 4) (m : Word) (hm : m.toNat = n.toNat) (hn : n ≠ 1)
    (h : opcOf cw = n) (h' : cw ≠ m) : illegalWord cw = true := by
  have h1 : cw.toNat % 16 = n.toNat := by rw [← opcOf_toNat, h]
  have h2 : cw.toNat ≠ m.toNat := fun e => h' (BitVec.eq_of_toNat_eq e)
  have h3 : n.toNat ≠ 1 := fun e => hn (BitVec.eq_of_toNat_eq e)
  simp [illegalWord]; omega

theorem exec_reserved {s : State} (h : s.Ready) (cw : Word) : exec (.reserved cw) s = .next { s with err := 1, result := 0 } := by
  rw [exec, execReserved, command_of_ready h]; rfl

/-- An illegal command answers ILLEGAL. -/
theorem exec_illegal {s : State} (h : s.Ready) {cw : Word} (hi : illegalWord cw = true) (arg : Word) :
    exec (decodeCmd cw arg) s = .next { s with err := 1, result := 0 } := by
  rw [decode_illegal hi]; exact exec_reserved h cw

/-- An event word as a number (30_encoding.md R77). -/
theorem evword_toNat (k : Knob) (e : EvKind) (pos : BitVec 8) :
    (evword k.src e pos).toNat = pos.toNat * 256 + k.src.toNat * 8 + (kindBits e).toNat := by
  unfold evword
  rw [toNat_append_add, toNat_append_add, toNat_append_add]
  simp; omega

end Sys2Proof.Laws
end

