-- ==== Sys2Proof/Laws/Led.lean ====
section
/-! SUPPORT. What the frame of LED.ENCODE holds, byte by byte, and what LED.ENCODE and LED.TX answer. -/

namespace Sys2Proof.Machine

theorem encCh_length (v : Byte) : (encCh v).length = 4 := rfl

theorem encPx_length (px : Word) : (encPx px).length = 16 := rfl

theorem template_ne (g : BitVec 2) : template g ≠ 0 := by revert g; decide

theorem encPx_ne {px : Word} {b : Byte} (h : b ∈ encPx px) : b ≠ 0 := by
  simp only [encPx, encCh, List.mem_append, List.mem_cons, List.not_mem_nil, or_false] at h
  rcases h with ((h | h) | h) | h <;> rcases h with rfl | rfl | rfl | rfl <;> exact template_ne _

/-- An element of blocks of one length, by block and place in it. -/
theorem getElem?_flatMap {α β : Type} {n : Nat} (f : α → List β) (hf : ∀ a, (f a).length = n) (l : List α) (o u : Nat)
    (hu : u < n) : (l.flatMap f)[n * o + u]? = (l[o]?).bind fun a => (f a)[u]? := by
  induction l generalizing o with
  | nil => simp
  | cons a l ih =>
    rw [List.flatMap_cons]
    cases o with
    | zero => rw [Nat.mul_zero, Nat.zero_add, List.getElem?_append_left (by rw [hf]; exact hu)]; rfl
    | succ o =>
      rw [List.getElem?_append_right (by rw [hf, Nat.mul_succ]; omega), hf,
        show n * (o + 1) + u - n = n * o + u by rw [Nat.mul_succ]; omega, ih]
      rfl

theorem length_flatMap_const {α β : Type} {n : Nat} (f : α → List β) (hf : ∀ a, (f a).length = n) (l : List α) :
    (l.flatMap f).length = n * l.length := by
  induction l with
  | nil => simp
  | cons a l ih => rw [List.flatMap_cons, List.length_append, ih, hf, List.length_cons, Nat.mul_succ]; omega

theorem frameBytes_length (s : State) (n : Nat) : (frameBytes s n).length = s.cfg.frameLen := by
  simp only [frameBytes, List.length_append, List.length_replicate, length_flatMap_const _ (fun _ => encPx_length _),
    List.length_range, Config.frameLen, bytesPerLed]
  omega

/-- The byte u of the physical slot o. -/
theorem frameBytes_slot (s : State) (n : Nat) {o u : Nat} (ho : o < s.cfg.nLeds) (hu : u < 16) :
    (frameBytes s n)[s.cfg.resetBytes + 16 * o + u]? = (encPx (suppliedPixel s n (unremap s.cfg.cols o)))[u]? := by
  unfold frameBytes
  rw [List.getElem?_append_left, List.getElem?_append_right (by simp; omega), List.length_replicate,
    show s.cfg.resetBytes + 16 * o + u - s.cfg.resetBytes = 16 * o + u by omega,
    getElem?_flatMap _ (fun _ => encPx_length _) _ _ _ hu, List.getElem?_range ho]
  · rfl
  · simp only [List.length_append, List.length_replicate, length_flatMap_const _ (fun _ => encPx_length _), List.length_range]
    omega

/-- The leading gap. -/
theorem frameBytes_lead (s : State) (n : Nat) {j : Nat} (h : j < s.cfg.resetBytes) : (frameBytes s n)[j]? = some 0 := by
  unfold frameBytes
  rw [List.append_assoc, List.getElem?_append_left (by simpa using h), List.getElem?_replicate, if_pos h]

/-- The trailing gap. -/
theorem frameBytes_trail (s : State) (n : Nat) {j : Nat} (h : s.cfg.resetBytes + 16 * s.cfg.nLeds ≤ j) (h' : j < s.cfg.frameLen) :
    (frameBytes s n)[j]? = some 0 := by
  have hl : (List.replicate s.cfg.resetBytes (0x00 : Byte) ++ (List.range s.cfg.nLeds).flatMap
      (fun o => encPx (suppliedPixel s n (unremap s.cfg.cols o)))).length = s.cfg.resetBytes + 16 * s.cfg.nLeds := by
    simp only [List.length_append, List.length_replicate, length_flatMap_const _ (fun _ => encPx_length _), List.length_range]
  unfold frameBytes
  rw [List.getElem?_append_right (by omega), List.getElem?_replicate, if_pos]
  rw [hl]
  simp only [Config.frameLen, bytesPerLed] at h'
  omega

/-- The gaps of a frame as numbers. -/
theorem inGap_iff (c : Config) (j : Nat) : inGap c j = true ↔ (j < c.resetBytes ∨ c.resetBytes + 16 * c.nLeds ≤ j) := by
  rw [inGap, Bool.or_eq_true, decide_eq_true_eq, decide_eq_true_eq]; rfl

/-- A byte that may stand in a frame is zero exactly in the gaps. -/
theorem frameByteOk_zero {c : Config} {j : Nat} {b : Byte} (h : frameByteOk c j b = true) :
    b = 0 ↔ (j < c.resetBytes ∨ c.resetBytes + 16 * c.nLeds ≤ j) := by
  rw [← inGap_iff]
  unfold frameByteOk at h
  split at h
  · simp_all
  · rename_i hg
    refine ⟨fun hb => ?_, fun hb => absurd hb hg⟩
    rw [hb] at h
    exact absurd h (by decide)

theorem untemplate_template (g : BitVec 2) : untemplate (template g) = some g := by revert g; decide

theorem encPx_untemplate {px : Word} {b : Byte} (h : b ∈ encPx px) : (untemplate b).isSome = true := by
  simp only [encPx, encCh, List.mem_append, List.mem_cons, List.not_mem_nil, or_false] at h
  rcases h with ((h | h) | h) | h <;> rcases h with rfl | rfl | rfl | rfl <;> rw [untemplate_template] <;> rfl

/-- Every byte of the frame that LED.ENCODE writes may stand at its index. -/
theorem frameBytes_ok {s : State} {n j : Nat} {b : Byte} (h : (frameBytes s n)[j]? = some b) : frameByteOk s.cfg j b = true := by
  have hj : j < s.cfg.frameLen := frameBytes_length s n ▸ (List.getElem?_eq_some_iff.1 h).1
  unfold frameByteOk
  split
  · rename_i hg
    rcases (inGap_iff _ _).1 hg with hl | hl
    · rw [frameBytes_lead s n hl] at h; exact decide_eq_true (Option.some.inj h).symm
    · rw [frameBytes_trail s n hl hj] at h; exact decide_eq_true (Option.some.inj h).symm
  · rename_i hg
    rw [inGap_iff] at hg
    rw [show j = s.cfg.resetBytes + 16 * ((j - s.cfg.resetBytes) / 16) + (j - s.cfg.resetBytes) % 16 by omega,
      frameBytes_slot _ _ (by omega) (by omega)] at h
    exact encPx_untemplate (List.mem_of_getElem? h)

/-- CFG_SQUARE (00_scope.md R12). -/
theorem valid_square {c : Config} (h : c.valid = true) : c.nLeds = c.cols * c.cols := by
  simp [Config.valid] at h; omega

theorem exec_pixWrite_ok {s : State} (hs : s.Ready) {idx : Half} (h : idx.toNat < s.cfg.nLeds) (v : Word) :
    exec (.pixWrite idx v) s = .next ((s.writePix idx.toNat v).setResponse 0 0) := by
  rw [exec, execPixWrite, command_of_ready hs, if_neg (by omega)]; rfl

theorem exec_pixWrite_bad {s : State} (hs : s.Ready) {idx : Half} (h : s.cfg.nLeds ≤ idx.toNat) (v : Word) :
    exec (.pixWrite idx v) s = .next (s.setResponse 2 0) := by
  rw [exec, execPixWrite, command_of_ready hs, if_pos h]; rfl

theorem exec_ledEncode_bad {s : State} (hs : s.Ready) {count : Word} (h : s.cfg.nLeds < count.toNat) :
    exec (.ledEncode count) s = .next (s.setResponse 3 0) := by
  rw [exec, execLedEncode, command_of_ready hs, if_pos h]; rfl

theorem exec_ledTx_none {s : State} (hs : s.Ready) (hv : s.fbValid = false) :
    exec .ledTx s = .next (s.setResponse 4 0) := by
  rw [exec, execLedTx, command_of_ready hs, if_neg (by simp [hv])]; rfl

theorem exec_ledEncode_ok {s : State} (hs : s.Ready) {count : Word} (h : count.toNat ≤ s.cfg.nLeds) :
    exec (.ledEncode count) s = .next ((s.setFrame (frameBytes s count.toNat)).setResponse 0 0) := by
  rw [exec, execLedEncode, command_of_ready hs, if_neg (by omega)]; rfl

theorem exec_ledTx_ok {s : State} (hs : s.Ready) (hv : s.fbValid = true) {bs} (h : s.frame = some bs) :
    exec .ledTx s = .next ((s.emitTx bs).setResponse 0 0) := by
  rw [exec, execLedTx, command_of_ready hs, if_pos hv, h]; rfl

/-- With the invariant a valid frame is there to be sent. -/
theorem inv_frame {s : State} (h : s.Inv) (hv : s.fbValid = true) : ∃ bs, s.frame = some bs := by
  have hk := h.fbKeys
  rw [hv, if_pos rfl, List.range_eq_range'] at hk
  refine ⟨s.fb.map Prod.snd, ?_⟩
  have hl : (s.fb.map Prod.snd).length = s.cfg.frameLen := by
    have := congrArg List.length hk; simpa using this
  rw [State.frame, load_of_keys hk, ← hl, values_load, dump_load]

/-- Every byte of a valid frame may stand at its index. -/
theorem inv_frame_ok {s : State} (h : s.Inv) {bs : List Byte} (hb : s.frame = some bs) {j : Nat} {b : Byte} (hj : bs[j]? = some b) :
    frameByteOk s.cfg j b = true := by
  obtain ⟨hl, hg⟩ := frame_spec hb
  have hj' := hg j (by have := (List.getElem?_eq_some_iff.1 hj).1; omega)
  rw [hj, State.readFb, Memory.read, fbBlank, Option.or_none] at hj'
  exact h.fbBytes _ (mem_of_find hj')

end Sys2Proof.Machine
end

