-- ==== Sys2Proof/Laws/Life.lean ====
section
/-! SUPPORT. The warm-up and the seeding, cell by cell; the grid of the next generation, cell by cell; the status
word; and what the GOL commands answer. -/

namespace Sys2Proof.Machine

theorem times13_toNat {v : Word} (h : v.toNat < 128) : (times13 v).toNat = v.toNat * 13 := by
  simp [times13, BitVec.toNat_mul]; omega

theorem shift1_toNat (v : Word) : (v >>> 1).toNat = v.toNat / 2 := by simp [Nat.shiftRight_eq_div_pow]

theorem lt128 (v : Word) : v < 128 ↔ v.toNat < 128 := by simp [BitVec.lt_def]

theorem ne_zero_toNat {v : Word} (h : v ≠ 0) : 0 < v.toNat := by
  rcases Nat.eq_zero_or_pos v.toNat with h0 | h0
  · exact absurd (BitVec.eq_of_toNat_eq h0) h
  · exact h0

/-- The working value stays above 128 from cell to cell. -/
theorem nextWorking_ge {v : Word} (h : 128 ≤ v.toNat) : 128 ≤ (nextWorking v).toNat := by
  simp only [nextWorking, lt128]
  split
  · rename_i h1
    rw [times13_toNat h1]
    rw [shift1_toNat] at *; omega
  · omega

/-- The warm-up of a seed other than 0 ends within the rounds given, at the first product that is not below 128. -/
theorem warmUp_spec {seed : Word} (h : seed ≠ 0) : ∃ n, warmUp warmUpRounds seed = seed * 13 ^ n ∧
    128 ≤ (warmUp warmUpRounds seed).toNat ∧ ∀ m < n, (seed * 13 ^ m).toNat < 128 := by
  have h0 := ne_zero_toNat h
  show ∃ n, warmUp 2 seed = seed * 13 ^ n ∧ 128 ≤ (warmUp 2 seed).toNat ∧ ∀ m < n, (seed * 13 ^ m).toNat < 128
  simp only [warmUp, lt128]
  split
  · rename_i h1
    have e1 := times13_toNat h1
    split
    · rename_i h2
      have e2 := times13_toNat h2
      refine ⟨2, ?_, by omega, fun m hm => ?_⟩
      · simp only [times13, BitVec.mul_assoc]; rfl
      · interval_cases m
        · simpa using h1
        · simpa [times13] using h2
    · refine ⟨1, by simp [times13], by omega, fun m hm => ?_⟩
      interval_cases m
      simpa using h1
  · exact ⟨0, by simp, by omega, fun m hm => by omega⟩

theorem seedCells_length (n : Nat) (v : Word) : (seedCells n v).length = n := by
  induction n generalizing v with
  | zero => rfl
  | succ n ih => simp [seedCells, ih]

theorem seedCells_get {n c : Nat} (v : Word) (h : c < n) : (seedCells n v)[c]? = some ((nextWorking^[c] v).getLsbD 0) := by
  induction n generalizing v c with
  | zero => omega
  | succ n ih =>
    cases c with
    | zero => rfl
    | succ c => rw [seedCells, List.getElem?_cons_succ, ih _ (by omega)]; rfl

theorem seededGrid_length (c : Config) (seed : Word) : (seededGrid c seed).length = c.cells := seedCells_length _ _

theorem cell_lt {c : Config} {x y : Nat} (hx : x < c.golW) (hy : y < c.golH) : y * c.golW + x < c.cells := by
  have : (y + 1) * c.golW ≤ c.golH * c.golW := Nat.mul_le_mul_right _ hy
  rw [Nat.add_mul] at this
  rw [Config.cells, Nat.mul_comm c.golW]; omega

theorem valid_gol {c : Config} (h : c.valid = true) : 0 < c.golW ∧ 0 < c.golH := by
  simp [Config.valid] at h; omega

theorem emodIdx_lt (a : Int) {b : Nat} (h : 0 < b) : emodIdx a b < b := by
  unfold emodIdx
  have h1 := Int.emod_nonneg a (show (b : Int) ≠ 0 by omega)
  have h2 := Int.emod_lt_of_pos a (show (0:Int) < (b : Int) by omega)
  omega

theorem cellNumber_lt {c : Config} (h : c.valid = true) (x y : Int) : cellNumber c x y < c.cells :=
  cell_lt (emodIdx_lt x (valid_gol h).1) (emodIdx_lt y (valid_gol h).2)

/-- With the invariant a valid grid is there to be read. -/
theorem inv_cells {s : State} (h : s.Inv) (hv : s.gridValid = true) : ∃ g, s.cells = some g := by
  have hk := h.gridKeys
  rw [hv, if_pos rfl, List.range_eq_range'] at hk
  refine ⟨s.grid.map Prod.snd, ?_⟩
  have hl : (s.grid.map Prod.snd).length = s.cfg.cells := by
    have := congrArg List.length hk; simpa using this
  rw [State.cells, load_of_keys hk, ← hl, values_load, dump_load]

theorem cellAt_liveAt {s : State} (hv : s.cfg.valid = true) {g} (h : s.cells = some g) (x y : Int) :
    cellAt s.cfg g x y = s.liveAt x y := by
  obtain ⟨h1, h2⟩ := cells_spec h
  have hl := cellNumber_lt hv x y
  have := h2 _ hl
  have e : s.liveAt x y = decide (s.readCell (cellNumber s.cfg x y) = some true) := rfl
  rw [e, this, cellAt, List.getD_eq_getElem?_getD, List.getElem?_eq_getElem (by omega)]
  simp

theorem lifeOffsets_perm : lifeOffsets.Perm offsets := by decide

/-- The neighbour count over GRID as the state reads it. -/
theorem neighbours_liveAt {s : State} (hv : s.cfg.valid = true) {g} (h : s.cells = some g) (x y : Int) :
    neighbours s.cfg g x y = lifeOffsets.countP (fun d => s.liveAt (x + d.1) (y + d.2)) := by
  rw [lifeOffsets_perm.countP_eq]
  unfold neighbours
  congr 1
  funext d
  exact cellAt_liveAt hv h _ _

theorem nextGrid_length (c : Config) (g : List Bool) : (nextGrid c g).length = c.cells := by simp [nextGrid]

/-- The cell (x, y) of the next generation. -/
theorem nextGrid_get {c : Config} {g : List Bool} {x y : Nat} (hx : x < c.golW) (hy : y < c.golH) :
    (nextGrid c g)[y * c.golW + x]? = some (newCell c g x y) := by
  have h0 : 0 < c.golW := by omega
  have e1 : (y * c.golW + x) % c.golW = x := by
    rw [Nat.add_comm, Nat.add_mul_mod_self_right, Nat.mod_eq_of_lt hx]
  have e2 : (y * c.golW + x) / c.golW = y := by
    rw [Nat.add_comm, Nat.add_mul_div_right _ _ h0, Nat.div_eq_of_lt hx, Nat.zero_add]
  rw [nextGrid, List.getElem?_map, List.getElem?_range (cell_lt hx hy)]
  simp only [Option.map_some, e1, e2]

theorem statusWord_bits (a b c : Bool) : (statusWord a b c).getLsbD 0 = c ∧ (statusWord a b c).getLsbD 1 = b ∧
    (statusWord a b c).getLsbD 2 = a ∧
   ∀ n, 3 ≤ n → (statusWord a b c).getLsbD n = false := by
  refine ⟨by revert a b c; decide, by revert a b c; decide, by revert a b c; decide, fun n hn => ?_⟩
  rcases Nat.lt_or_ge n 32 with h | h
  · have : ∀ a b c : Bool, ∀ n : Fin 32, 3 ≤ n.val → (statusWord a b c).getLsbD n = false := by decide
    exact this a b c ⟨n, h⟩ hn
  · exact BitVec.getLsbD_of_ge _ _ h

theorem exec_golReset_ok {s : State} (hs : s.Ready) {seed : Word} (h : seed ≠ 0) :
    exec (.golReset seed) s = .next ((s.setGrid (seededGrid s.cfg seed) false).setResponse 0 0) := by
  rw [exec, execGolReset, command_of_ready hs, if_neg h]; rfl

theorem exec_golReset_zero {s : State} (hs : s.Ready) : exec (.golReset 0) s = .next { s with cmdState := .hung } := by
  rw [exec, execGolReset, command_of_ready hs, if_pos rfl]; rfl

theorem exec_golStep_ok {s : State} (hs : s.Ready) (hv : s.gridValid = true) {g} (h : s.cells = some g) :
    exec .golStep s = .next ((s.setGrid (nextGrid s.cfg g) (gridChanged g (nextGrid s.cfg g))).setResponse 0
          (bitWord (gridChanged g (nextGrid s.cfg g)))) := by
  rw [exec, execGolStep, command_of_ready hs, withGrid, if_pos hv, h]; rfl

theorem exec_golStep_none {s : State} (hs : s.Ready) (hv : s.gridValid = false) :
    exec .golStep s = .next (s.setResponse 5 0) := by
  rw [exec, execGolStep, command_of_ready hs, withGrid, if_neg (by simp [hv])]; rfl

theorem exec_golRead_ok {s : State} (hs : s.Ready) (hv : s.gridValid = true) {x y : Half} {b : Bool}
    (hb : s.readCell (cellNumber s.cfg (coord x) (coord y)) = some b) :
    exec (.golRead x y) s = .next (s.setResponse 0 (bitWord b)) := by
  rw [exec, execGolRead, command_of_ready hs, if_pos hv, hb]; rfl

theorem exec_golRead_none {s : State} (hs : s.Ready) (hv : s.gridValid = false) (x y : Half) :
    exec (.golRead x y) s = .next (s.setResponse 5 0) := by
  rw [exec, execGolRead, command_of_ready hs, if_neg (by simp [hv])]; rfl

theorem exec_golStatus_ok {s : State} (hs : s.Ready) (h : (s.gridValid && s.cells.isNone) = false) :
    exec .golStatus s = .next (s.setResponse 0 (statusWord s.gridValid s.allDead s.changed)) := by
  rw [exec, execGolStatus, command_of_ready hs, h]; rfl

/-- A command presented to a HUNG port. -/
theorem exec_hung {s : State} (hv : s.cfg.valid = true) (h : s.cmdState = .hung) {i : Instr} (hi : isCommand i = true) :
    exec i s = .fault .commandPortHung := by
  cases i with
  | rqdSample k a b c => cases hi
  | nop => rw [exec, execNop, command_of_hung hv h]
  | pixWrite => rw [exec, execPixWrite, command_of_hung hv h]
  | ledEncode => rw [exec, execLedEncode, command_of_hung hv h]
  | ledTx => rw [exec, execLedTx, command_of_hung hv h]
  | golReset => rw [exec, execGolReset, command_of_hung hv h]
  | golStep => rw [exec, execGolStep, command_of_hung hv h]
  | golRead => rw [exec, execGolRead, command_of_hung hv h]
  | golStatus => rw [exec, execGolStatus, command_of_hung hv h]
  | reserved => rw [exec, execReserved, command_of_hung hv h]

end Sys2Proof.Machine
end

