-- ==== Sys2Proof/Laws/Rotary.lean ====
section
/-! SUPPORT. What a sample does to a decoder instance: the transition, the arrival at the detent, the button part, and the
instance invariant kept. -/

namespace Sys2Proof.Machine

theorem transition_pos (p : BitVec 2) (r : Rqd) : (transition p r).pos = r.pos := by
  simp only [transition]; split_ifs <;> rfl

theorem transition_btn (p : BitVec 2) (r : Rqd) : (transition p r).btn = r.btn := by
  simp only [transition]; split_ifs <;> rfl

theorem transition_phase (p : BitVec 2) (r : Rqd) : (transition p r).phase = p := rfl

theorem transition_lost (p : BitVec 2) (r : Rqd) : (transition p r).lost = if p ^^^ r.phase = 0b11 then true else r.lost := by
  simp only [transition]; split_ifs <;> rfl

theorem transition_acc (p : BitVec 2) (r : Rqd) : (transition p r).acc =
    if p ^^^ r.phase = 0b11 then 0 else if r.lost then r.acc else if p = succCw r.phase then r.acc + 1 else r.acc - 1 := by
  simp only [transition]; split_ifs <;> rfl

theorem arrive_fst (c : Config) (k : Knob) (r : Rqd) : (arriveAtDetent c k r).1 =
   { r with acc := 0, lost := false, pos := match detentClick r with | none => r.pos | some t => clickPos (c.notch k) t r.pos } := by
  unfold arriveAtDetent; split <;> simp_all

theorem arrive_snd (c : Config) (k : Knob) (r : Rqd) : (arriveAtDetent c k r).2 =
   match detentClick r with | none => [] | some t => [evword k.src (clickKind t) (clickPos (c.notch k) t r.pos)] := by
  unfold arriveAtDetent; split <;> simp_all

theorem button_fst (c : Config) (k : Knob) (l : Bool) (r : Rqd) :
    (buttonStep c k l r).1 = { r with btn := (l == c.btnActive k) } := by
  unfold buttonStep pressed; split
  · rename_i h; simp [h]
  · rfl

theorem button_snd (c : Config) (k : Knob) (l : Bool) (r : Rqd) : (buttonStep c k l r).2 =
   if (l == c.btnActive k) = r.btn then [] else [evword k.src (buttonKind c.btnMode (l == c.btnActive k)) 0] := by
  unfold buttonStep pressed; split <;> simp_all

theorem quad_btn (c : Config) (k : Knob) (p : BitVec 2) (r : Rqd) : (quadStep c k p r).1.btn = r.btn := by
  unfold quadStep; split
  · rfl
  · split
    · rw [arrive_fst]; exact transition_btn p r
    · exact transition_btn p r

theorem quad_phase (c : Config) (k : Knob) (p : BitVec 2) (r : Rqd) : (quadStep c k p r).1.phase = p := by
  unfold quadStep; split
  · rename_i h; exact h.symm
  · split
    · rw [arrive_fst]; rfl
    · rfl

/-- The instance after a sample. -/
theorem sample_fst (c : Config) (k : Knob) (a b l : Bool) (r : Rqd) : (sampleRqd c k a b l r).1 =
  { (quadStep c k (phaseOf c a b) r).1 with btn := (l == c.btnActive k) } := button_fst _ _ _ _

/-- The words a sample emits. -/
theorem sample_snd (c : Config) (k : Knob) (a b l : Bool) (r : Rqd) : (sampleRqd c k a b l r).2 =
  (quadStep c k (phaseOf c a b) r).2 ++ if (l == c.btnActive k) = r.btn then []
    else [evword k.src (buttonKind c.btnMode (l == c.btnActive k)) 0] := by
  show _ ++ (buttonStep _ _ _ _).2 = _
  rw [button_snd, quad_btn]

/-- The quadrature part emits nothing or one rotation event. -/
theorem quad_words (c : Config) (k : Knob) (p : BitVec 2) (r : Rqd) : (quadStep c k p r).2 = [] ∨
   ∃ t q, (quadStep c k p r).2 = [evword k.src (clickKind t) q] := by
  unfold quadStep
  split
  · exact .inl rfl
  · split
    · rw [arrive_snd]; split
      · exact .inl rfl
      · exact .inr ⟨_, _, rfl⟩
    · exact .inl rfl

/-- The part of `Rqd.ok` that does not speak of the position. -/
def okCore (phase : BitVec 2) (acc : BitVec 4) (lost : Bool) : Bool :=
  -3 ≤ acc.toInt && acc.toInt ≤ 3 && (if lost then acc = 0 else acc.toInt % 4 = phaseIdx phase)

theorem ok_iff (n : Nat) (r : Rqd) : r.ok n = true ↔ r.pos.toNat ≤ n ∧ okCore r.phase r.acc r.lost = true := by
  unfold Rqd.ok okCore; simp only [Bool.and_eq_true, and_assoc, decide_eq_true_eq]

/-- `transition_acc` over the fields alone. -/
def accAfter (p phase : BitVec 2) (acc : BitVec 4) (lost : Bool) : BitVec 4 :=
  if p ^^^ phase = 0b11 then 0 else if lost then acc else if p = succCw phase then acc + 1 else acc - 1

/-- `transition_lost` over the fields alone. -/
def lostAfter (p phase : BitVec 2) (lost : Bool) : Bool := if p ^^^ phase = 0b11 then true else lost

theorem detent_table : ∀ (phase : BitVec 2) (acc : BitVec 4) (lost : Bool), okCore phase acc lost = true → phase ≠ 0 →
    (if lostAfter 0 phase lost then (none : Option Turn)
      else if (accAfter 0 phase acc lost).toInt = 4 then some .cw
      else if (accAfter 0 phase acc lost).toInt = -4 then some .ccw else none) =
    if lost = false ∧ phase = 0b01 ∧ acc.toInt = 3 then some .cw
    else if lost = false ∧ phase = 0b10 ∧ acc.toInt = -3 then some .ccw else none := by decide +kernel

/-- The click of an arrival at the detent, from the state before it. -/
theorem detent_spec {n : Nat} {r : Rqd} (h : r.ok n = true) (hp : r.phase ≠ 0b00) :
    detentClick (transition 0b00 r) = if r.lost = false ∧ r.phase = 0b01 ∧ r.acc.toInt = 3 then some .cw
      else if r.lost = false ∧ r.phase = 0b10 ∧ r.acc.toInt = -3 then some .ccw else none := by
  rw [← detent_table r.phase r.acc r.lost ((ok_iff _ _).1 h).2 hp]
  rw [detentClick, transition_lost, transition_acc]
  rfl

theorem core_table : ∀ (p phase : BitVec 2) (acc : BitVec 4) (lost : Bool), okCore phase acc lost = true → p ≠ 0 → p ≠ phase →
   okCore p (accAfter p phase acc lost) (lostAfter p phase lost) = true := by decide +kernel

theorem acc_table : ∀ (p phase : BitVec 2) (acc : BitVec 4) (lost : Bool), okCore phase acc lost = true → 
    p ^^^ phase ≠ 0b11 → (accAfter p phase acc lost).toInt = if lost then 0
      else if p = succCw phase then acc.toInt + 1 else acc.toInt - 1 := by decide +kernel

theorem quad_eq_arrive {c : Config} {k : Knob} {r : Rqd} (h : r.phase ≠ 0b00) :
    quadStep c k 0b00 r = arriveAtDetent c k (transition 0b00 r) := by
  rw [quadStep, if_neg (Ne.symm h), if_pos rfl]

theorem quad_eq_same {c : Config} {k : Knob} {p} {r : Rqd} (h : p = r.phase) : quadStep c k p r = (r, []) := by
  rw [quadStep, if_pos h]

theorem quad_eq_away {c : Config} {k : Knob} {p} {r : Rqd} (h : p ≠ r.phase) (h0 : p ≠ 0b00) :
    quadStep c k p r = (transition p r, []) := by
  rw [quadStep, if_neg h, if_neg h0]

/-- A rotation event comes only from an arrival at the detent that ends a full cycle, and carries the position after it. -/
theorem quad_event {c : Config} {k : Knob} {p : BitVec 2} {r : Rqd} (h : r.ok (c.notch k) = true) : (quadStep c k p r).2 = [] ∨
    (p = 0b00 ∧ r.lost = false ∧ (r.phase = 0b01 ∧ r.acc.toInt = 3 ∨ r.phase = 0b10 ∧ r.acc.toInt = -3) ∧
      ∃ t, (quadStep c k p r).2 = [evword k.src (clickKind t) (quadStep c k p r).1.pos]) := by
  by_cases h1 : p = r.phase
  · exact .inl (by rw [quad_eq_same h1])
  · by_cases h0 : p = 0b00
    · subst h0
      rw [quad_eq_arrive (Ne.symm h1), arrive_snd, arrive_fst, detent_spec h (Ne.symm h1)]
      by_cases hw : r.lost = false ∧ r.phase = 0b01 ∧ r.acc.toInt = 3
      · rw [if_pos hw]; exact .inr ⟨rfl, hw.1, .inl hw.2, .cw, rfl⟩
      · rw [if_neg hw]
        by_cases hc : r.lost = false ∧ r.phase = 0b10 ∧ r.acc.toInt = -3
        · rw [if_pos hc]; exact .inr ⟨rfl, hc.1, .inr hc.2, .ccw, rfl⟩
        · rw [if_neg hc]; exact .inl rfl
    · exact .inl (by rw [quad_eq_away h1 h0])

/-- The position after a click, as a number. -/
theorem clickPos_toNat {n : Nat} (hn : n ≤ 255) {pos : BitVec 8} (hp : pos.toNat ≤ n) : 
   (clickPos n .cw pos).toNat = (if pos.toNat = n then 0 else pos.toNat + 1) ∧
   (clickPos n .ccw pos).toNat = (if pos.toNat = 0 then n else pos.toNat - 1) := by
  have h0 : pos = 0 ↔ pos.toNat = 0 := by rw [BitVec.toNat_eq]; rfl
  simp only [clickPos, h0]
  constructor
  · split
    · rfl
    · rw [BitVec.toNat_add]; simp; omega
  · split
    · simp; omega
    · rw [BitVec.toNat_sub]; simp; omega

theorem valid_notch {c : Config} (h : c.valid = true) (k : Knob) : c.notch k ≤ 255 := by
  simp [Config.valid] at h; cases k <;> simp [Config.notch] <;> omega

/-- A sample keeps the instance invariant (10_state.md R43, R44, R46). -/
theorem sample_keeps_ok {c : Config} (hv : c.valid = true) {k : Knob} {a b l : Bool} {r : Rqd} (h : r.ok (c.notch k) = true) :
   (sampleRqd c k a b l r).1.ok (c.notch k) = true := by
  have h' := h
  rw [ok_iff] at h ⊢
  rw [sample_fst]
  generalize phaseOf c a b = p
  by_cases h1 : p = r.phase
  · rw [quad_eq_same h1]; exact h
  · by_cases h0 : p = 0b00
    · subst h0
      rw [quad_eq_arrive (Ne.symm h1), arrive_fst]
      refine ⟨?_, rfl⟩
      have hc := clickPos_toNat (valid_notch hv k) h.1
      show (match detentClick (transition 0 r) with | none => _ | some t => _ : BitVec 8).toNat ≤ _
      rw [transition_pos]
      split
      · exact h.1
      · rename_i t _
        cases t
        · rw [hc.1]; split <;> omega
        · rw [hc.2]; split <;> omega
    · rw [quad_eq_away h1 h0]
      refine ⟨by show (transition p r).pos.toNat ≤ _; rw [transition_pos]; exact h.1, ?_⟩
      have := core_table p r.phase r.acc r.lost h.2 h0 h1
      show okCore (transition p r).phase (transition p r).acc (transition p r).lost = true
      rw [transition_acc, transition_lost]; exact this

theorem exec_sample_ok {s : State} {k : Knob} {a b c : Bool} (hv : s.cfg.valid = true) (hk : (s.rqd k).ok (s.cfg.notch k) = true) :
    exec (.rqdSample k a b c) s =
      .next ((s.setRqd k (sampleRqd s.cfg k a b c (s.rqd k)).1).emitEv k (sampleRqd s.cfg k a b c (s.rqd k)).2) := by
  rw [exec, execRqdSample, guardConfig_of_valid hv, if_pos hk]

end Sys2Proof.Machine
end

