-- ==== Sys2Proof/Machine/Assembler.lean ====
section
/-! DEFINITION. The text syntax of operations and pseudo-operations (30_encoding.md R84, R85) and the binary form CW:ARG, over lists
of characters. What R84 leaves open about blanks, signs and letters is log entry 16. -/

namespace Sys2Proof.Machine

/-- A blank between the parts of a line. -/
def isBlank (c : Char) : Bool := c = ' ' || c = '\t'

/-- Text without the blanks around it. -/
def trimText (l : List Char) : List Char :=
  ((l.dropWhile isBlank).reverse.dropWhile isBlank).reverse

/-- The text before a comment, which `;` begins. -/
def dropComment (l : List Char) : List Char := l.takeWhile (· ≠ ';')

/-- The texts between commas. -/
def splitCommas : List Char → List (List Char)
  | [] => [[]]
  | c :: l =>
    if c = ',' then [] :: splitCommas l
    else
      match splitCommas l with
      | [] => [[c]]
      | t :: ts => (c :: t) :: ts

/-- The operands after a mnemonic: none, or texts separated by commas. -/
def operandsOf (l : List Char) : List (List Char) :=
  if trimText l = [] then [] else (splitCommas l).map trimText

/-- The value of a decimal digit. -/
def decDigit (c : Char) : Option Nat :=
  if '0' ≤ c ∧ c ≤ '9' then some (c.toNat - '0'.toNat) else none

/-- The value of a hexadecimal digit of either case. -/
def hexDigit (c : Char) : Option Nat :=
  if '0' ≤ c ∧ c ≤ '9' then some (c.toNat - '0'.toNat)
  else if 'a' ≤ c ∧ c ≤ 'f' then some (c.toNat - 'a'.toNat + 10)
  else if 'A' ≤ c ∧ c ≤ 'F' then some (c.toNat - 'A'.toNat + 10)
  else none

/-- The number that digits write after the value n read so far. -/
def readDigits (base : Nat) (digit : Char → Option Nat) (n : Nat) : List Char → Option Nat
  | [] => some n
  | c :: l => (digit c).bind fun d => readDigits base digit (n * base + d) l

/-- A number: decimal, or hexadecimal with `0x`. -/
def readNat : List Char → Option Nat
  | [] => none
  | ['0', 'x'] => none
  | '0' :: 'x' :: l => readDigits 16 hexDigit 0 l
  | l => readDigits 10 decDigit 0 l

/-- A number below a bound. -/
def readBelow (bound : Nat) (l : List Char) : Option Nat :=
  (readNat l).bind fun n => if n < bound then some n else none

/-- A 32-bit operand: pixel, count or seed. -/
def readWord (l : List Char) : Option Word :=
  (readBelow (2 ^ 32) l).map (BitVec.ofNat 32)

/-- The index of PIX.WRITE, 0 to 65535. -/
def readIdx (l : List Char) : Option Half :=
  (readBelow (2 ^ 16) l).map (BitVec.ofNat 16)

/-- A coordinate of GOL.READ, -32768 to 32767. -/
def readCoord : List Char → Option Half
  | '-' :: l => (readBelow 32769 l).map fun n => BitVec.ofInt 16 (-(n : Int))
  | l => (readBelow 32768 l).map (BitVec.ofNat 16)

/-- A level, 0 or 1. -/
def readLevel (l : List Char) : Option Bool :=
  (readBelow 2 l).map (· = 1)

/-- RED or YELLOW. -/
def readKnob (l : List Char) : Option Knob :=
  if l = "RED".toList then some .red else if l = "YELLOW".toList then some .yellow else none

/-- The operation or pseudo-operation of a mnemonic and its operands, as the list of operations it stands for. -/
def parseOperation (c : Config) (mnemonic : List Char) (ops : List (List Char)) : Option (List Instr) :=
  match ops with
  | [] =>
    if mnemonic = "NOP".toList then some [.nop]
    else if mnemonic = "LED.TX".toList then some [.ledTx]
    else if mnemonic = "GOL.STEP".toList then some [.golStep]
    else if mnemonic = "GOL.STATUS".toList then some [.golStatus]
    else if mnemonic = "PIX.CLEAR".toList then expandPseudo c .pixClear
    else none
  | [u] =>
    if mnemonic = "LED.ENCODE".toList then (readWord u).map fun n => [.ledEncode n]
    else if mnemonic = "GOL.RESET".toList then (readWord u).map fun n => [.golReset n]
    else if mnemonic = "LED.SHOW".toList then (readWord u).bind fun n => expandPseudo c (.ledShow n)
    else none
  | [u, v] =>
    if mnemonic = "PIX.WRITE".toList then
      (readIdx u).bind fun i => (readWord v).map fun px => [.pixWrite i px]
    else if mnemonic = "GOL.READ".toList then
      (readCoord u).bind fun x => (readCoord v).map fun y => [.golRead x y]
    else if mnemonic = "RQD.CW".toList then
      (readKnob u).bind fun k => (readLevel v).bind fun t => expandPseudo c (.rqdCw k t)
    else if mnemonic = "RQD.CCW".toList then
      (readKnob u).bind fun k => (readLevel v).bind fun t => expandPseudo c (.rqdCcw k t)
    else none
  | [u, v, w, z] =>
    if mnemonic = "RQD.SAMPLE".toList then
      (readKnob u).bind fun k => (readLevel v).bind fun a => (readLevel w).bind fun b =>
        (readLevel z).map fun t => [.rqdSample k a b t]
    else none
  | _ => none

/-- One line: at most one operation, and a comment (30_encoding.md R84). A line that says nothing stands for no operation. -/
def assembleLine (c : Config) (line : List Char) : Option (List Instr) :=
  let l := trimText (dropComment line)
  if l = [] then some []
  else parseOperation c (l.takeWhile fun ch => !isBlank ch) (operandsOf (l.dropWhile fun ch => !isBlank ch))

/-- The inputs a text of lines presents to the block, oldest first. -/
def assemble (c : Config) : List (List Char) → Option (List Input)
  | [] => some []
  | line :: lines =>
    (assembleLine c line).bind fun is => (assemble c lines).map fun l => is.map encode ++ l

/-- One hexadecimal digit. -/
def hexChar (n : Nat) : Char :=
  Char.ofNat (if n < 10 then '0'.toNat + n else 'A'.toNat + (n - 10))

/-- A word as 8 hexadecimal digits. -/
def hexWord (w : Word) : List Char :=
  (List.range 8).map fun i => hexChar (w.toNat / 16 ^ (7 - i) % 16)

/-- The binary form `CW:ARG` of a command (30_encoding.md R84). -/
def commandText (cw arg : Word) : List Char := hexWord cw ++ [':'] ++ hexWord arg

end Sys2Proof.Machine
end

