-- ==== Sys2Proof/Tests/Slice0.lean ====
section
/-! SUPPORT. The model's own tests: ill-formed terms refused, words written out from 30_encoding.md decoded, one step of each operation
with the result that 95_test_vectors.md gives, and, for each obligation with hypotheses, a concrete state that meets them. -/

namespace Sys2Proof.Tests

open Sys2Proof.Machine

/-! ## States -/

/-- The small configuration of 95_test_vectors.md. -/
def small : Config := { Config.reference with nLeds := 4, cols := 2, resetBytes := 2, golW := 3, golH := 3 }

/-- A block of one LED and one cell. -/
def tiny : Config := { small with nLeds := 1, cols := 1, resetBytes := 1, golW := 1, golH := 1 }

/-- Reset in the small configuration, with the pixels of 95_test_vectors.md L2.L4. -/
def pixState : State :=
  { State.resetWith small with pix := [(0, 0x11223344), (1, 0xFF000000), (2, 0x00FF0000), (3, 0x000000FF)] }

/-- The frame of 95_test_vectors.md L2.L4, from its table. -/
def frameL4 : List Byte :=
  [0x00, 0x00]
    ++ [0x88, 0xC8, 0x88, 0xC8, 0x88, 0x8C, 0x88, 0x8C, 0x88, 0xCC, 0x88, 0xCC, 0x8C, 0x88, 0x8C, 0x88]
    ++ [0xCC, 0xCC, 0xCC, 0xCC] ++ List.replicate 12 0x88
    ++ List.replicate 12 0x88 ++ [0xCC, 0xCC, 0xCC, 0xCC]
    ++ List.replicate 4 0x88 ++ [0xCC, 0xCC, 0xCC, 0xCC] ++ List.replicate 8 0x88
    ++ [0x00, 0x00]

/-- A block that holds the frame of L2.L4. -/
def frameState : State := pixState.setFrame frameL4

/-- The block of L2.L4 after the frame is sent once. -/
def sentState : State := { frameState with tx := frameL4 }

/-- Cells written `#` and `.`, as 95_test_vectors.md writes a row. -/
def cellsOf (l : List Char) : List Bool := l.map (· = '#')

/-- A grid of w columns and h rows in an otherwise reset block. -/
def gridState (w h : Nat) (cells : List Char) : State :=
  (State.resetWith { tiny with golW := w, golH := h }).setGrid (cellsOf cells) false

/-- The grid that seed 1 leaves (42_game_of_life.md R161). -/
def seedOne : State := gridState 3 3 "#..#...#.".toList

/-- The reset block of the small configuration with a RED decoder in mid-cycle. -/
def redAt (phase : BitVec 2) (acc : BitVec 4) (lost : Bool) (pos : BitVec 8) : State :=
  { State.resetWith small with rqdRed := { phase := phase, acc := acc, lost := lost, pos := pos, btn := false } }

/-- A block whose port is HUNG, with what the host presents. -/
def hungWith (l : List Input) : State :=
  { State.resetWith small with cmdState := .hung, inputs := l }

/-- The next state an outcome answers. -/
def nextOf : Outcome → Option State
  | .next t => some t
  | _ => none

/-- ERR and RESULT of the next state. -/
def answer (o : Outcome) : Option (BitVec 4 × Word) :=
  (nextOf o).map fun t => (t.err, t.result)

/-! ## States that have the invariant -/

theorem test_reset_ready : State.reset.Ready := ⟨by decide, rfl⟩

theorem test_small_ready : (State.resetWith small).Ready := ⟨by decide, rfl⟩

theorem test_reset_inv : State.reset.Inv := by
  constructor <;> first | decide | (intro k; cases k <;> decide)

theorem test_small_inv : (State.resetWith small).Inv := by
  constructor <;> first | decide | (intro k; cases k <;> decide)

theorem test_pixState_inv : pixState.Inv := by
  constructor <;> first | decide | (intro k; cases k <;> decide)

theorem test_frameState_inv : frameState.Inv := by
  constructor <;> first | decide +kernel | (intro k; cases k <;> decide +kernel)

theorem test_sentState_inv : sentState.Inv := by
  constructor <;> first | decide +kernel | (intro k; cases k <;> decide +kernel)

/-- A zero byte in a slot, and a template in a gap, have no place in a frame (41_led_encoder.md R134). -/
theorem test_frame_bytes : frameByteOk small 1 0x00 = true ∧ frameByteOk small 2 0x00 = false ∧ frameByteOk small 2 0x88 = true ∧
    frameByteOk small 65 0x00 = false ∧ frameByteOk small 66 0x00 = true ∧ frameByteOk small 1 0x88 = false := by decide

theorem test_seedOne_inv : seedOne.Inv := by
  constructor <;> first | decide +kernel | (intro k; cases k <;> decide +kernel)

theorem test_one_cell_live_inv : (gridState 1 1 ['#']).Inv := by
  constructor <;> first | decide | (intro k; cases k <;> decide)

theorem test_one_cell_dead_inv : (gridState 1 1 ['.']).Inv := by
  constructor <;> first | decide | (intro k; cases k <;> decide)

theorem test_row_inv : (gridState 5 1 ".###.".toList).Inv := by
  constructor <;> first | decide | (intro k; cases k <;> decide)

/-! ## Well-formedness and configurations: an ill-formed term for each check -/

theorem test_wf_reserved_legal_word : (Instr.reserved 0x00000007).wf = false := by decide
theorem test_wf_reserved_pix_word : (Instr.reserved 0xFFFF0001).wf = false := by decide
theorem test_wf_reserved_opcode : (Instr.reserved 0x00000008).wf = true ∧ (Instr.reserved 0x0000000F).wf = true := by decide
theorem test_wf_reserved_rsv : (Instr.reserved 0x00000010).wf = true ∧ (Instr.reserved 0x00008001).wf = true := by decide
theorem test_wf_reserved_idx : (Instr.reserved 0x00010000).wf = true ∧ (Instr.reserved 0x00050005).wf = true := by decide

theorem test_cfg_reference : Config.reference.valid = true ∧ Config.reference.frameLen = 2432 := by decide
theorem test_cfg_notch_red : Config.valid { small with notchRed := 256 } = false := by decide
theorem test_cfg_notch_yellow : Config.valid { small with notchYellow := 256 } = false := by decide
theorem test_cfg_no_leds : Config.valid { small with nLeds := 0, cols := 0 } = false := by decide
/-- 95_test_vectors.md L2.L3: 3 columns by 2 rows. -/
theorem test_cfg_not_square : Config.valid { small with nLeds := 6, cols := 3 } = false := by decide
theorem test_cfg_no_width : Config.valid { small with golW := 0 } = false := by decide
theorem test_cfg_wide : Config.valid { small with golW := 32768 } = false := by decide
theorem test_cfg_no_height : Config.valid { small with golH := 0 } = false := by decide
theorem test_cfg_high : Config.valid { small with golH := 32768 } = false := by decide
theorem test_cfg_bounds : Config.valid { small with notchRed := 255, resetBytes := 0, golW := 32767, golH := 32767 } = true := by decide

/-- 70_reset_and_hazards.md R248: 19456 bits, which take about 6.1 ms at its 3.2 Mbit/s; no time where no rate is given. -/
theorem test_wire_time : Config.reference.wireBits = 19456 ∧ Config.reference.wireTime = none ∧
    Config.wireTime { Config.reference with serialRate := some 3200000 } = some (608 / 100000) := by decide +kernel

/-! ## Decoding: a word of each constructor, written out from 30_encoding.md R71 to R75 -/

theorem test_decode_nop : decode (.cmd 0b0000000000000000_000000000000_0000 0x12345678) = some .nop := by decide
theorem test_decode_pixWrite :
    decode (.cmd 0b0000000000000101_000000000000_0001 0x11223344) = some (.pixWrite 5 0x11223344) := by decide
theorem test_decode_ledEncode :
    decode (.cmd 0b0000000000000000_000000000000_0010 0x00000091) = some (.ledEncode 145) := by decide
theorem test_decode_ledTx : decode (.cmd 0b0000000000000000_000000000000_0011 0xFFFFFFFF) = some .ledTx := by decide
theorem test_decode_golReset :
    decode (.cmd 0b0000000000000000_000000000000_0100 0xDEADBEEF) = some (.golReset 0xDEADBEEF) := by decide
theorem test_decode_golStep : decode (.cmd 0b0000000000000000_000000000000_0101 0) = some .golStep := by decide
theorem test_decode_golRead :
    decode (.cmd 0b0000000000000000_000000000000_0110 0b1111111111111110_0000000000000011) = some (.golRead 3 0xFFFE) := by
  decide
theorem test_decode_golStatus : decode (.cmd 0b0000000000000000_000000000000_0111 0) = some .golStatus := by decide
theorem test_decode_reserved_opcodes :
    decode (.cmd 0b0000000000000000_000000000000_1000 0) = some (.reserved 0x8) ∧
      decode (.cmd 0b0000000000000000_000000000000_1111 0) = some (.reserved 0xF) := by decide
theorem test_decode_reserved_fields :
    decode (.cmd 0b0000000000000000_000000000001_0001 0) = some (.reserved 0x11) ∧
      decode (.cmd 0b0000000000000001_000000000000_0000 0) = some (.reserved 0x10000) := by decide
/-- 95_test_vectors.md L3 program 1, step 3: k c b a. -/
theorem test_decode_rqdSample :
    decode (.pin 0b1_0_1_0) = some (.rqdSample .yellow false true false) ∧
      decode (.pin 0b0_1_0_1) = some (.rqdSample .red true false true) := by decide

/-- 30_encoding.md R84's own example, through the encoder. -/
theorem test_encode_pixWrite : encode (.pixWrite 5 0x11223344) = .cmd 0x00050001 0x11223344 := by decide
/-- 42_game_of_life.md R170's example: GOL.READ 0, -2. -/
theorem test_encode_golRead : encode (.golRead 0 (BitVec.ofInt 16 (-2))) = .cmd 0x00000006 0xFFFE0000 := by decide

/-- The bits of a row, first word lowest (spec/opcode_table.json). -/
theorem test_table_word : decodeTableWord 64 0x11223344_00050001 = some (.pixWrite 5 0x11223344) ∧
    decodeTableWord 4 0b1010 = some (.rqdSample .yellow false true false) ∧ decodeTableWord 64 (2 ^ 64) = none := by decide

/-! ## The assembler (30_encoding.md R84, R85) -/

theorem test_assemble_pixWrite :
    assemble small ["PIX.WRITE  5, 0x11223344 ; one pixel".toList] = some [.cmd 0x00050001 0x11223344] := by decide +kernel
theorem test_assemble_coordinate :
    assembleLine small "GOL.READ -32768, 32767".toList = some [.golRead 0x8000 0x7FFF] ∧
      assembleLine small "GOL.READ 32768, 0".toList = none := by decide +kernel
/-- 95_test_vectors.md L3 program 1, step 1. -/
theorem test_assemble_cw : assemble small ["RQD.CW RED, 0".toList] = some [.pin 0b0001, .pin 0b0011, .pin 0b0010, .pin 0b0000] := by
  decide +kernel
theorem test_assemble_clear :
    assembleLine small "PIX.CLEAR".toList = some [.pixWrite 0 0, .pixWrite 1 0, .pixWrite 2 0, .pixWrite 3 0] := by decide +kernel
theorem test_command_text : commandText 0x00050001 0x11223344 = "00050001:11223344".toList := by decide +kernel

/-! ## One step of each operation -/

/-- 43_control.md R190: a NOP clears a previous error code. -/
theorem test_nop_clears : answer (exec .nop { State.reset with err := 5, result := 0 }) = some (0, 0) := by decide
theorem test_nop_step : answer (step (State.reset.withFetchWord 64 0x12345678_00000000)) = some (0, 0) := by decide +kernel

/-- 95_test_vectors.md L2.C: GOL.STEP with a set IDX field is not performed. -/
theorem test_reserved_step : answer (step (seedOne.withFetchWord 64 0x00050005)) = some (1, 0) ∧
    (nextOf (step (seedOne.withFetchWord 64 0x00050005))).map (·.grid) = some seedOne.grid := by decide +kernel
theorem test_reserved_last : answer (exec (.reserved 0x0000000F) State.reset) = some (1, 0) := by decide

/-- 95_test_vectors.md L2.L6, the last pixel and the first index that is none. -/
theorem test_pixWrite_last : answer (exec (.pixWrite 143 0xFFFFFFFF) State.reset) = some (0, 0) ∧
    (nextOf (exec (.pixWrite 143 0xFFFFFFFF) State.reset)).map (·.readPix 143) = some 0xFFFFFFFF := by decide +kernel
theorem test_pixWrite_bad : answer (exec (.pixWrite 144 1) State.reset) = some (2, 0) := by decide +kernel

/-- 95_test_vectors.md L2.L4. -/
theorem test_ledEncode_frame : (nextOf (exec (.ledEncode 4) pixState)).bind (·.frame) = some frameL4 := by decide +kernel
theorem test_ledEncode_bad : answer (exec (.ledEncode 5) frameState) = some (3, 0) ∧
    (nextOf (exec (.ledEncode 5) frameState)).map (·.fb) = some frameState.fb := by decide +kernel

/-- 95_test_vectors.md L3 program 2, steps 5 and 8. -/
theorem test_ledTx_noFrame : answer (exec .ledTx pixState) = some (4, 0) := by decide
theorem test_ledTx_sends : (nextOf (exec .ledTx frameState)).map (·.tx) = some frameL4 := by decide +kernel

/-- 42_game_of_life.md R161's example. -/
theorem test_golReset_one : (nextOf (exec (.golReset 1) (State.resetWith small))).bind (·.cells) =
    some (cellsOf "#..#...#.".toList) := by decide +kernel
theorem test_golReset_zero : (nextOf (exec (.golReset 0) State.reset)).map (·.cmdState) = some .hung := by decide

/-- 95_test_vectors.md L2.G1, seed 1, and L2.G2, the row. -/
theorem test_golStep_all : answer (exec .golStep seedOne) = some (0, 1) ∧
    (nextOf (exec .golStep seedOne)).bind (·.cells) = some (List.replicate 9 true) := by decide +kernel
theorem test_golStep_row : (nextOf (exec .golStep (gridState 5 1 ".###.".toList))).bind (·.cells) =
    some (cellsOf "#...#".toList) := by decide +kernel

/-- 42_game_of_life.md R170's example, and 95_test_vectors.md L2.G4. -/
theorem test_golRead_example : answer (exec (.golRead 0 0xFFFE) seedOne) = some (0, 1) := by decide +kernel
theorem test_golRead_wrap : answer (exec (.golRead 0x8000 0xFFFF) (gridState 4 4 "#..#........#..#".toList)) = some (0, 1) := by
  decide +kernel

/-- 42_game_of_life.md R176's example, and 95_test_vectors.md L2.G5. -/
theorem test_golStatus_dead : answer (exec .golStatus (gridState 3 3 ".........".toList)) = some (0, 6) := by decide +kernel
theorem test_golStatus_none : answer (exec .golStatus State.reset) = some (0, 0) := by decide

/-- 95_test_vectors.md L2.R1, the fourth sample of a click, and L2.R2, the press in it. -/
theorem test_sample_click : (nextOf (exec (.rqdSample .red false false false) (redAt 0b01 3 false 0))).map (·.evRed) =
    some [0x0100] := by decide
theorem test_sample_press : (nextOf (exec (.rqdSample .red false false true) (redAt 0b01 3 false 0))).map (·.evRed) =
    some [0x0100, 0x0002] := by decide

/-- 60_exceptions.md R222 and 10_state.md R38: an illegal command and a press before the reset, GOL.STATUS after it. -/
theorem test_observe_reset : observe 4 small [.cmd 0x8 0, .pin 0b0100, .reset, .cmd 0x7 0] = some ⟨[], [], [], [(0, 0)], .idle⟩ ∧
    observe 2 small [.cmd 0x8 0, .pin 0b0100, .reset, .cmd 0x7 0] = some ⟨[0x0002], [], [], [(1, 0)], .idle⟩ := by decide +kernel

/-- 60_exceptions.md R222: a HUNG run, with the response of the command before, is not completed; it has no step for a command. -/
theorem test_observe_hung : observe 2 small [.cmd 0x0 0, .cmd 0x4 0, .cmd 0x0 0] = some ⟨[], [], [], [(0, 0)], .hung⟩ ∧
    (observe 2 small [.cmd 0x0 0, .cmd 0x4 0, .cmd 0x0 0]).map (·.completed) = some false ∧
    observe 3 small [.cmd 0x0 0, .cmd 0x4 0, .cmd 0x0 0] = none := by decide +kernel

/-! ## Witnesses: for each obligation with hypotheses, a state and operands that meet them -/

/-- DecodeOfEncodeIsTheInstruction, TableRow: well-formed instructions with operands at the bounds of their fields. -/
theorem test_witness_roundtrip : (Instr.reserved 0xFFFFFFF8).wf = true ∧ (Instr.golRead 0x8000 0x7FFF).wf = true ∧
    (Instr.pixWrite 0xFFFF 0xFFFFFFFF).wf = true := by decide

/-- ExactlyTheIllegalWordsAreIllegal: a legal word that ignores ARG. -/
theorem test_witness_legal : illegalWord 0x0 = false ∧ illegalWord 0x7 = false ∧ decodeCmd 0x7 5 = decodeCmd 0x7 0 := by decide

/-- EncodeOfDecodeKeepsEveryUsedBit, ExactlyTheIllegalWordsAreIllegal: the four operations that use ARG. -/
theorem test_witness_usedBits : [(0xFFFF0001 : Word), 0x2, 0x4, 0x6].map (fun cw => (illegalWord cw, opcOf cw)) =
    [(false, 1), (false, 2), (false, 4), (false, 6)] := by decide +kernel

/-- DecoderFollowsTheProcedure, ExactlyTheIllegalWordsAreIllegal: each clause at its boundary. -/
theorem test_witness_illegal : 8 ≤ (0x8 : Word).toNat % 16 ∧ 8 ≤ (0xF : Word).toNat % 16 ∧
    (0x10 : Word).toNat / 16 % 4096 ≠ 0 ∧ (0x8001 : Word).toNat / 16 % 4096 ≠ 0 ∧
    (0x10000 : Word).toNat % 16 ≠ 1 ∧ (0x10000 : Word).toNat / 65536 ≠ 0 ∧ illegalWord 0xFFFF0002 = true := by decide

/-- EventWordsReadBack: a set RSV field and the first reserved kind. -/
theorem test_witness_badEvent : (0x0010 : Half).toNat / 16 % 16 ≠ 0 ∧ 5 ≤ (0x0005 : Half).toNat % 8 ∧ 5 ≤ (0x0007 : Half).toNat % 8 := by
  decide

/-- The ILLEGAL clauses of the commands: the operation code with a set reserved bit. -/
theorem test_witness_reservedBits : opcOf 0x10 = 0 ∧ (0x10 : Word).toNat / 16 ≠ 0 ∧ opcOf 0x11 = 1 ∧ rsvOf 0x11 ≠ 0 ∧
    opcOf 0x8001 = 1 ∧ rsvOf 0x8001 ≠ 0 ∧
    [(0x12 : Word), 0x13, 0x14, 0x15, 0x16, 0x17].map opcOf = [2, 3, 4, 5, 6, 7] ∧
    [(0x10002 : Word), 0x10003, 0x10004, 0x10005, 0x10006, 0x10007].map opcOf = [2, 3, 4, 5, 6, 7] := by decide +kernel

/-- PixWriteStoresOneWord, WritingCommandsChangeTheirOwnStateOnly: both clauses at the bound. -/
theorem test_witness_pixWrite : State.reset.Ready ∧ Memory.wf pixBlank State.reset.pix = true ∧
    (143 : Half).toNat < State.reset.cfg.nLeds ∧ State.reset.cfg.nLeds ≤ (144 : Half).toNat :=
  ⟨test_reset_ready, by decide⟩

theorem test_witness_pixWrite_next : ((nextOf (exec (.pixWrite 143 1) State.reset)).isSome = true ∧
    (nextOf (exec (.pixWrite 144 1) State.reset)).isSome = true) ∧ Memory.wf pixBlank State.reset.pix = true := by decide +kernel

/-- LedEncodeWritesTheFrame, FrameIsLaidOutBySlot, ZeroBytesOnlyInTheGaps, CountZeroEncodesEverySlotOff: the counts at the bounds, and
an index in each part of the frame. -/
theorem test_witness_ledEncode : (State.resetWith small).Ready ∧ (0 : Word).toNat ≤ small.nLeds ∧ (4 : Word).toNat ≤ small.nLeds ∧
    small.nLeds < (5 : Word).toNat ∧ 0 < small.resetBytes ∧ 3 < small.nLeds ∧ small.resetBytes + 16 * small.nLeds ≤ 66 ∧
    67 < small.frameLen ∧ small.frameLen ≤ 68 :=
  ⟨test_small_ready, by decide⟩

/-- ZeroBytesOnlyInTheGaps: a valid frame, and a frame on TX with a byte in each gap and in a slot. -/
theorem test_witness_gaps : (frameState.Inv ∧ frameState.cmdState = .idle ∧ frameState.fbValid = true) ∧ sentState.Inv ∧
    sentState.tx.length = 68 ∧ sentState.cfg.frameLen = 68 ∧
    [1, 2, 65, 66].map (fun j => sentState.tx[j]?) = [some 0x00, some 0x88, some 0x88, some 0x00] :=
  ⟨⟨test_frameState_inv, rfl, rfl⟩, test_sentState_inv, by decide⟩

/-- LedTxSendsTheFrame: with and without a frame. -/
theorem test_witness_ledTx : frameState.Inv ∧ frameState.cmdState = .idle ∧ frameState.fbValid = true ∧
    (State.resetWith small).Ready ∧ (State.resetWith small).fbValid = false :=
  ⟨test_frameState_inv, rfl, rfl, test_small_ready, rfl⟩

/-- PixWriteDoesNotReachTheOldFrame, RepeatingACommandChangesNothingMore (LED.TX): both commands answer a next state. -/
theorem test_witness_oldFrame : (nextOf (exec (.pixWrite 0 0) frameState)).isSome = true ∧
    (nextOf (exec .ledTx frameState)).isSome = true ∧ frameState.fbValid = true := by decide +kernel

/-- RemapIsABijection: the first and the last index. -/
theorem test_witness_remap : 0 < 3 * 3 ∧ 8 < 3 * 3 ∧ remap 3 8 = 8 ∧ unremap 3 5 = 1 := by decide

/-- PixClearLeavesEveryPixelOff. -/
theorem test_witness_pixClear : pixState.Inv ∧ pixState.cmdState = .idle ∧ (expandPseudo pixState.cfg .pixClear).isSome = true :=
  ⟨test_pixState_inv, rfl, by decide⟩

/-- GolResetSeedsTheGrid, WorkingValueStaysAbove128: seeds at the bounds, the last cell, a value at each end of the range. -/
theorem test_witness_golReset : (State.resetWith small).Ready ∧ (1 : Word) ≠ 0 ∧ (0xFFFFFFFF : Word) ≠ 0 ∧ 2 < small.golH ∧ 2 < small.golW ∧
    small.golW = 3 ∧ small.golH = 3 ∧ (127 : Word).toNat < 128 ∧ 64 ≤ (64 : Word).toNat ∧ (64 : Word).toNat < 128 :=
  ⟨test_small_ready, by decide⟩

/-- WorkingValueStaysAbove128 (d): two blocks that differ in all but W and H. -/
theorem test_witness_sameGrid : small.golW = (seedOne.cfg).golW ∧ small.golH = seedOne.cfg.golH ∧ small ≠ seedOne.cfg ∧
    (nextOf (exec (.golReset 1) (State.resetWith small))).isSome = true ∧ (nextOf (exec (.golReset 1) seedOne)).isSome = true := by
  decide +kernel

/-- SeedZeroHangsThePort. -/
theorem test_witness_hang : State.reset.Ready ∧ isCommand .nop = true ∧ isCommand (.reserved 8) = true ∧
    (nextOf (exec (.rqdSample .yellow true false true) State.reset)).isSome = true :=
  ⟨test_reset_ready, by decide⟩

/-- GolStepIsOneGeneration, GolReadReadsOneCell, GolStatusReportsTheFlags: with and without a grid. -/
theorem test_witness_grid : seedOne.Inv ∧ seedOne.cmdState = .idle ∧ seedOne.gridValid = true ∧ 2 < seedOne.cfg.golH ∧
    2 < seedOne.cfg.golW ∧ State.reset.Ready ∧ State.reset.gridValid = false :=
  ⟨test_seedOne_inv, rfl, rfl, by decide, by decide, test_reset_ready, rfl⟩

/-- GolStatusReportsTheFlags: the clause for a block with no grid. -/
theorem test_witness_noGrid : State.reset.Inv ∧ State.reset.cmdState = .idle ∧ State.reset.gridValid = false :=
  ⟨test_reset_inv, rfl, rfl⟩

/-- SmallGridsCountEachPosition: the live and the dead cell, and the row. -/
theorem test_witness_smallGrids : ((gridState 1 1 ['#']).Inv ∧ (gridState 1 1 ['#']).readCell 0 = some true) ∧
    ((gridState 1 1 ['.']).Inv ∧ (gridState 1 1 ['.']).readCell 0 = some false) ∧
    ((gridState 5 1 ".###.".toList).Inv ∧ (gridState 5 1 ".###.".toList).cells = some [false, true, true, true, false]) :=
  ⟨⟨test_one_cell_live_inv, by decide⟩, ⟨test_one_cell_dead_inv, by decide⟩, test_row_inv, by decide⟩

/-- The rest of SmallGridsCountEachPosition's hypotheses. -/
theorem test_witness_smallGrids_shape : ((gridState 1 1 ['#']).cfg.golW = 1 ∧ (gridState 1 1 ['#']).cfg.golH = 1 ∧
      (gridState 1 1 ['#']).cmdState = .idle ∧ (gridState 1 1 ['#']).gridValid = true) ∧
    ((gridState 5 1 ".###.".toList).cfg.golW = 5 ∧ (gridState 5 1 ".###.".toList).cfg.golH = 1 ∧
      (gridState 5 1 ".###.".toList).cmdState = .idle ∧ (gridState 5 1 ".###.".toList).gridValid = true) := by decide

/-- CornerCellCountsTheFarEdges: the smallest grid. -/
theorem test_witness_corner : 2 ≤ (gridState 2 2 "#..#".toList).cfg.golW ∧ 2 ≤ (gridState 2 2 "#..#".toList).cfg.golH := by decide

/-- The statements about a sample: a valid configuration and an instance in its invariant, at the detent and at both ends of acc. -/
theorem test_witness_sample : ∀ s ∈ [State.resetWith small, redAt 0b01 3 false 18, redAt 0b10 (-3) false 0, redAt 0b11 0 true 7],
    s.cfg.valid = true ∧ (s.rqd .red).ok (s.cfg.notch .red) = true := by decide

/-- BothLinesChangedLosesTheCycle: away from the detent, and onto it. -/
theorem test_witness_bothLines : phaseOf small true true ^^^ (redAt 0b00 0 false 0).rqdRed.phase = 0b11 ∧
    phaseOf small false false ^^^ (redAt 0b11 2 false 0).rqdRed.phase = 0b11 ∧
    (redAt 0b11 2 false 0).rqdRed.ok (small.notch .red) = true := by decide

/-- BothLinesChangedLosesTheCycle, the lost cycle: a sample away from the detent, with a changed and with an unchanged phase. -/
theorem test_witness_lostCycle : (redAt 0b11 0 true 7).cfg.valid = true ∧ (redAt 0b11 0 true 7).rqdRed.ok (small.notch .red) = true ∧
    (redAt 0b11 0 true 7).rqdRed.lost = true ∧ phaseOf small true false ≠ 0b00 ∧ phaseOf small true true ≠ 0b00 := by decide

/-- DecoderStaysInItsBounds: the count at 4 and at -4 within a sample. -/
theorem test_witness_fullCount : (redAt 0b01 3 false 0).rqdRed.ok 18 = true ∧
    (transition 0b00 (redAt 0b01 3 false 0).rqdRed).acc.toInt = 4 ∧ (redAt 0b10 (-3) false 0).rqdRed.ok 18 = true ∧
    (transition 0b00 (redAt 0b10 (-3) false 0).rqdRed).acc.toInt = -4 := by decide

/-- DecoderStaysInItsBounds: a state with the invariant, and the step of a sample from it. -/
theorem test_witness_bounds : (State.resetWith small).Inv ∧
    (nextOf (step ((State.resetWith small).withFetchWord 4 0b0011))).map (·.rqdRed.lost) = some true :=
  ⟨test_small_inv, by decide⟩

/-- ResetWithPinsOffTheDetent: each phase the pins can stand at, the button pressed and released, and a second sample at the detent. -/
theorem test_witness_pinsOff : small.valid = true ∧ (State.resetWith small).rqdRed = Rqd.reset ∧
    ([(false, false), (true, false), (true, true), (false, true)].map fun ab => phaseOf small ab.1 ab.2) = [0b00, 0b10, 0b11, 0b01] ∧
    true = small.btnActive .red ∧ false ≠ small.btnActive .red := by decide

/-- ResetWithPinsOffTheDetent: a second sample at the detent that releases the button, with P_NOTCH = 0. -/
theorem test_witness_secondSample :
    ((nextOf (exec (.rqdSample .red true false true) (State.resetWith { small with notchRed := 0 }))).bind fun t =>
      (nextOf (exec (.rqdSample .red false false false) t)).map (·.evRed)) = some [0x0002, 0x0003] := by decide

/-- ButtonChangesEmitOneEvent: a sample with a rotation event and one with none, from states of test_witness_sample. -/
theorem test_witness_rotation : phaseOf small false false = 0b00 ∧
    (nextOf (exec (.rqdSample .red false false true) (redAt 0b10 (-3) false 0))).map (·.evRed) = some [0x1201, 0x0002] ∧
    (nextOf (exec (.rqdSample .red true true true) (redAt 0b10 (-3) false 0))).map (·.evRed) = some [0x0002] := by decide

/-- OneLineChangedCountsAQuarterStep: both directions, and with the cycle lost. -/
theorem test_witness_oneLine : ∀ s ∈ [redAt 0b10 1 false 0, redAt 0b10 0 true 0, redAt 0b01 (-1) false 0],
    s.cfg.valid = true ∧ (s.rqd .red).ok (s.cfg.notch .red) = true ∧ phaseOf s.cfg true true ≠ 0b00 ∧
      phaseOf s.cfg true true ≠ (s.rqd .red).phase ∧ phaseOf s.cfg true true ^^^ (s.rqd .red).phase ≠ 0b11 := by decide

/-- FullCycleClicksOnce: each of its three clauses, with the position at each end of its range. -/
theorem test_witness_click : ∀ s ∈ [redAt 0b01 3 false 18, redAt 0b01 3 false 0, redAt 0b10 (-3) false 0, redAt 0b10 (-3) false 18,
      redAt 0b01 (-1) false 5, redAt 0b10 0 true 5],
    s.cfg.valid = true ∧ (s.rqd .red).ok (s.cfg.notch .red) = true ∧ phaseOf s.cfg false false = 0b00 ∧
      (s.rqd .red).phase ≠ 0b00 := by decide

/-- SampleWithoutChangeDoesNothing: nothing changed, only BTN, only a line. -/
theorem test_witness_noChange : phaseOf small false false = (redAt 0b00 0 false 0).rqdRed.phase ∧
    (false == small.btnActive .red) = (redAt 0b00 0 false 0).rqdRed.btn ∧
    (true == small.btnActive .red) ≠ (redAt 0b00 0 false 0).rqdRed.btn ∧
    phaseOf small true false ≠ (redAt 0b00 0 false 0).rqdRed.phase ∧
    (redAt 0b00 0 false 0).rqdRed.ok (small.notch .red) = true := by decide

/-- PositionMovesOnlyOnAFullCycle, SampleTouchesOneKnobOnly: a sample that moves the position. -/
theorem test_witness_positionMoves :
    (nextOf (exec (.rqdSample .red false false false) (redAt 0b01 3 false 18))).map (·.rqdRed.pos) = some 0 ∧
      (redAt 0b01 3 false 18).rqdRed.pos = 18 := by decide

/-- PseudoTurnsClickOnce. -/
theorem test_witness_pseudoTurns : small.valid = true ∧ (redAt 0b00 0 false 18).rqdRed.ok (small.notch .red) = true ∧
    small.quadInvert = false ∧ (redAt 0b00 0 false 18).rqdRed.phase = 0b00 ∧ (redAt 0b00 0 false 18).rqdRed.lost = false ∧
    (false == small.btnActive .red) = (redAt 0b00 0 false 18).rqdRed.btn := by decide

/-- ReadingCommandsChangeTheResponseOnly, WritingCommandsChangeTheirOwnStateOnly, EveryStateHasItsWriters: each command answers a next
state. -/
theorem test_witness_commands : ∀ i ∈ [Instr.nop, .reserved 8, .golRead 1 1, .golStatus, .pixWrite 0 7, .ledEncode 1, .golReset 0, .golReset 9,
      .golStep], isCommand i = true ∧ (nextOf (exec i seedOne)).isSome = true := by decide +kernel

/-- ErrorsArePrecise, EveryCommandHasItsErrorCode: a command of each error code, with the port left IDLE. -/
theorem test_witness_errors :
    ([Instr.reserved 8, .pixWrite 4 1, .ledEncode 5, .ledTx, .golStep].map fun i =>
      (nextOf (exec i pixState)).map fun t => (t.err, t.cmdState)) =
      [some (1, .idle), some (2, .idle), some (3, .idle), some (4, .idle), some (5, .idle)] ∧
    isCommand .golStep = true ∧ decodeCmd 0x00000005 0 = .golStep := by decide +kernel

/-- RepeatingACommandChangesNothingMore: a state with the invariant in which each command answers a next state. -/
theorem test_witness_repeat : seedOne.Inv ∧ ∀ i ∈ [Instr.golRead 1 1, .golStatus, .pixWrite 0 7, .ledEncode 1, .golReset 9],
    (nextOf (exec i seedOne)).isSome = true :=
  ⟨test_seedOne_inv, by decide +kernel⟩

/-- ResetLeavesTheStatedValues: the last pixel. -/
theorem test_witness_resetValues : 143 < Config.reference.nLeds := by decide

/-- ResetEventFromEveryState: reset first, and reset behind a command that waits at a HUNG port. -/
theorem test_witness_resetEvent : small.valid = true ∧
    ({ State.resetWith small with inputs := [.reset, .cmd 0 0] } : State).inputs = .reset :: [.cmd 0 0] ∧
    (hungWith [.cmd 0 0, .reset, .cmd 7 0]).cmdState = .hung ∧
    (hungWith [.cmd 0 0, .reset, .cmd 7 0]).inputs = [((0 : Word), (0 : Word))].map (fun c => .cmd c.1 c.2) ++ .reset :: [.cmd 7 0] := by
  decide

/-- StepRunsTheDecodedInstruction: a command, and a sample. -/
theorem test_witness_stepRuns : (State.reset.withFetchWord 64 0x00000007).inputs = [.cmd 7 0] ∧
    (State.reset.withFetchWord 64 0x00000007).cmdState = .idle ∧ decode (.cmd 7 0) = some .golStatus ∧
    decode (.pin 0b1111) = some (.rqdSample .yellow true true true) := by decide

/-- HungPortLetsDecodersRun: a sample behind a command that waits, and a command alone. -/
theorem test_witness_hungPort : (hungWith [.cmd 0 0, .pin 1]).cmdState = .hung ∧
    (hungWith [.cmd 0 0, .pin 1]).inputs = [((0 : Word), (0 : Word))].map (fun c => .cmd c.1 c.2) ++ .pin 1 :: [] ∧
    (hungWith [.cmd 0 0]).cfg.valid = true ∧ [((0 : Word), (0 : Word))] ≠ [] ∧
    (hungWith [.cmd 0 0]).inputs = [((0 : Word), (0 : Word))].map (fun c => .cmd c.1 c.2) := by decide

/-- NoInputNoChange. -/
theorem test_witness_noInput : State.reset.cfg.valid = true ∧ State.reset.inputs = [] := by decide

/-- BadConfigurationIsRefused: each clause at its boundary. -/
theorem test_witness_badConfiguration : 255 < ({ small with notchRed := 256 } : Config).notchRed ∧
    255 < ({ small with notchYellow := 256 } : Config).notchYellow ∧ ({ small with nLeds := 0 } : Config).nLeds < 1 ∧
    ({ small with nLeds := 6, cols := 3 } : Config).nLeds ≠ 3 * 3 ∧ ({ small with golW := 0 } : Config).golW < 1 ∧
    32767 < ({ small with golW := 32768 } : Config).golW ∧ ({ small with golH := 0 } : Config).golH < 1 ∧
    32767 < ({ small with golH := 32768 } : Config).golH := by decide

/-- InvariantHoldsAtReset: the smallest block. -/
theorem test_witness_validConfig : tiny.valid = true ∧ Config.reference.valid = true := by decide

/-- EveryStepKeepsTheInvariant, NoOperationStopsAnIdleBlock, NoStepChangesTheParameters: a state with the invariant that steps. -/
theorem test_witness_invariant : frameState.Inv ∧ frameState.cmdState = .idle ∧
    (nextOf (step frameState)).isSome = true ∧ (nextOf (step (frameState.withFetchWord 64 3))).isSome = true :=
  ⟨test_frameState_inv, rfl, by decide +kernel, by decide +kernel⟩

/-- AgentsCommute: a sample and a command, and a sample of each knob, that answer a next state. -/
theorem test_witness_commute : isCommand .golStep = true ∧ (nextOf (exec .golStep seedOne)).isSome = true ∧
    (nextOf (exec (.rqdSample .red true false true) seedOne)).isSome = true ∧
    (nextOf (exec (.rqdSample .yellow false true false) seedOne)).isSome = true := by decide +kernel

/-- OnlyResetClears: a block with a frame that is HUNG and steps on a sample, and one that takes no reset. -/
theorem test_witness_onlyResetClears : frameState.fbValid = true ∧ seedOne.gridValid = true ∧
    fetch (hungWith [.pin 1]) = some (.pin 1, []) ∧ (nextOf (step (hungWith [.pin 1]))).isSome = true ∧
    fetch (frameState.setInputs [.cmd 3 0]) = some (.cmd 3 0, []) ∧
    (nextOf (step (frameState.setInputs [.cmd 3 0]))).isSome = true ∧
    fetch (seedOne.setInputs [.cmd 5 0]) = some (.cmd 5 0, []) ∧
    (nextOf (step (seedOne.setInputs [.cmd 5 0]))).isSome = true := by decide +kernel

/-- SerialRateDecidesNothing: a step and an operation of each outcome; a run that has an observation. -/
theorem test_witness_rate : (nextOf (step frameState)).isSome = true ∧ step (hungWith [.cmd 0 0]) = .fault .commandPortHung ∧
    step (State.resetWith { small with nLeds := 5 }) = .refused .badConfiguration ∧
    (nextOf (exec .ledTx frameState)).isSome = true ∧ exec .nop (hungWith []) = .fault .commandPortHung ∧
    exec .nop (State.resetWith { small with nLeds := 5 }) = .refused .badConfiguration ∧
    (observe 1 small [.cmd 3 0]).isSome = true :=
  ⟨by decide +kernel, rfl, rfl, by decide +kernel, rfl, rfl, by decide +kernel⟩

/-- WireTimeOfAFrame: a valid frame at an IDLE port, and the smallest rate. -/
theorem test_witness_wireTime : frameState.Inv ∧ frameState.cmdState = .idle ∧ frameState.fbValid = true ∧ (1 : Nat) ≠ 0 :=
  ⟨test_frameState_inv, rfl, rfl, by decide⟩

/-- ObservationCollectsTheResponses: a sample, a command and a reset as the oldest input, and a HUNG run without a reset. -/
theorem test_witness_observation : (nextOf (step ((State.resetWith small).setInputs [.pin 1]))).isSome = true ∧
    (nextOf (step ((State.resetWith small).setInputs [.cmd 4 0]))).map (·.cmdState) = some .hung ∧
    (nextOf (step ((State.resetWith small).setInputs [.cmd 7 0]))).map (·.cmdState) = some .idle ∧
    ((State.resetWith small).setInputs [.reset]).inputs = .reset :: [] ∧ small.valid = true ∧
    (hungWith [.cmd 0 0, .pin 4]).cmdState = .hung ∧ Input.reset ∉ (hungWith [.cmd 0 0, .pin 4]).inputs ∧
    (observeFrom 1 [(0, 0)] (hungWith [.cmd 0 0, .pin 4])).isSome = true := by decide +kernel

end Sys2Proof.Tests
end

section
/-! SUPPORT. The obligations of the scope (00_scope.md): a step in terms of the input it takes, the refusal of a bad configuration, and
the bits and the time of a frame on the line. -/

namespace Sys2Proof.Machine

/-! ## A step, by the input it takes -/

theorem step_of_fetch_none {s : State} (hf : fetch s = none) : step s = idleStep s := by
  simp only [step, hf]

theorem step_of_fetch_instr {s : State} {i : Input} {rest : List Input} {instr : Instr} (hf : fetch s = some (i, rest))
    (hd : decode i = some instr) : step s = exec instr (s.setInputs rest) := by
  simp only [step, hf, hd]

theorem step_of_fetch_reset {s : State} {rest : List Input} (hf : fetch s = some (.reset, rest)) :
    step s = resetEvent (s.setInputs rest) := by
  simp only [step, hf, decode]

/-- Settles O47: an IDLE port hands the oldest input to the step. -/
theorem stepRunsTheDecodedInstruction : Obligations.StepRunsTheDecodedInstruction := by
  intro s i rest instr hidle hin hd
  exact step_of_fetch_instr (fetch_idle hidle hin) hd

/-! ## The refusal of a bad configuration -/

/-- The configurations that are refused, by the range or the check that each breaks (00_scope.md R7, R11, R12, R15). -/
theorem valid_eq_false_iff {c : Config} : c.valid = false ↔
    255 < c.notchRed ∨ 255 < c.notchYellow ∨ c.nLeds < 1 ∨ c.nLeds ≠ c.cols * c.cols ∨
      c.golW < 1 ∨ 32767 < c.golW ∨ c.golH < 1 ∨ 32767 < c.golH := by
  simp only [← Bool.not_eq_true, Config.valid, Bool.and_eq_true, decide_eq_true_eq]
  omega

theorem command_of_invalid {s : State} (h : s.cfg.valid = false) (body : State → Outcome) :
    command s body = .refused .badConfiguration :=
  guardConfig_of_invalid h _

/-- A sample is guarded by the configuration alone, every other operation as a command. -/
theorem exec_of_invalid {s : State} (h : s.cfg.valid = false) (i : Instr) : exec i s = .refused .badConfiguration := by
  cases i with
  | rqdSample => rw [exec, execRqdSample, guardConfig_of_invalid h]
  | nop => rw [exec, execNop, command_of_invalid h]
  | pixWrite => rw [exec, execPixWrite, command_of_invalid h]
  | ledEncode => rw [exec, execLedEncode, command_of_invalid h]
  | ledTx => rw [exec, execLedTx, command_of_invalid h]
  | golReset => rw [exec, execGolReset, command_of_invalid h]
  | golStep => rw [exec, execGolStep, command_of_invalid h]
  | golRead => rw [exec, execGolRead, command_of_invalid h]
  | golStatus => rw [exec, execGolStatus, command_of_invalid h]
  | reserved => rw [exec, execReserved, command_of_invalid h]

/-- A step that waits, that runs an operation or that resets the block has the same guard. -/
theorem step_of_invalid {s : State} (h : s.cfg.valid = false) : step s = .refused .badConfiguration := by
  cases hf : fetch s with
  | none => rw [step_of_fetch_none hf]; exact guardConfig_of_invalid h _
  | some taken =>
    obtain ⟨i, rest⟩ := taken
    have h' : (s.setInputs rest).cfg.valid = false := h
    cases i with
    | pin p => rw [step_of_fetch_instr hf rfl]; exact exec_of_invalid h' _
    | cmd cw arg => rw [step_of_fetch_instr hf rfl]; exact exec_of_invalid h' _
    | reset => rw [step_of_fetch_reset hf]; exact guardConfig_of_invalid h' _

/-- Settles O50: every operation and every step meets the guard of the configuration first. -/
theorem badConfigurationIsRefused : Obligations.BadConfigurationIsRefused := by
  intro s hbad
  have h : s.cfg.valid = false := valid_eq_false_iff.2 hbad
  exact ⟨exec_of_invalid h, step_of_invalid h⟩

/-! ## The bits and the time of a frame (70_reset_and_hazards.md R248) -/

@[simp] theorem serialBits_length (b : Byte) : (serialBits b).length = 8 := rfl

theorem wireTime_of_rate (c : Config) {r : Nat} (hr : r ≠ 0) :
    { c with serialRate := some r }.wireTime = some ((c.wireBits : Rat) / r) :=
  if_neg hr

/-- LED.TX of a valid frame sends the bits that the configuration gives a frame. -/
theorem exec_ledTx_wireBits {s : State} (hs : s.Ready) (hv : s.fbValid = true) {bs : List Byte} (hb : s.frame = some bs) :
    ∃ t, exec .ledTx s = .next t ∧ t.tx = s.tx ++ bs ∧ (bs.flatMap serialBits).length = s.cfg.wireBits := by
  refine ⟨_, exec_ledTx_ok hs hv hb, by simp, ?_⟩
  rw [length_flatMap_const serialBits serialBits_length, (frame_spec hb).1, Nat.mul_comm, Config.wireBits]

/-- Settles O60: FB holds FRAME_LEN bytes when FB_VALID = 1, each of them 8 bits on the line. -/
theorem wireTimeOfAFrame : Obligations.WireTimeOfAFrame := by
  refine ⟨fun s hinv hidle hv => ?_, fun c r hr => wireTime_of_rate c hr, rfl, rfl⟩
  obtain ⟨bs, hb⟩ := inv_frame hinv hv
  obtain ⟨t, hexec, htx, hbits⟩ := exec_ledTx_wireBits ⟨hinv.cfg, hidle⟩ hv hb
  exact ⟨t, bs, hexec, htx, hbits⟩

end Sys2Proof.Machine
end

section
/-! SUPPORT. The obligations of the state (10_state.md): what an operation can do, said once; the invariant of the machine at reset and
over every step; and what follows from the two for the decoders, the writers, the output logs and the observation. -/

namespace Sys2Proof.Machine

/-! ## What an operation can do -/

/-- `Effect s i t`: t is s after an update that the operation i may make. One constructor for each update, with the guard under which it is
made; every next state of i in s is among them (`exec_effect`), which is all that the proofs below need. -/
inductive Effect (s : State) : Instr → State → Prop where
  | sample (k : Knob) (a b c : Bool) (hk : (s.rqd k).ok (s.cfg.notch k) = true) :
    Effect s (.rqdSample k a b c)
      ((s.setRqd k (sampleRqd s.cfg k a b c (s.rqd k)).1).emitEv k (sampleRqd s.cfg k a b c (s.rqd k)).2)
  /-- A command that raises an error; which commands raise which code is not said here. -/
  | error (i : Instr) (hi : isCommand i = true) (e : ErrCode) : Effect s i (s.setResponse (errBits e) 0)
  /-- A command that writes only its response; r is left open, as no use of `Effect` depends on it. -/
  | answer (i : Instr) (hi : isCommand i = true) (r : Word) : Effect s i (s.setResponse 0 r)
  | pixWrite (idx : Half) (v : Word) (hidx : idx.toNat < s.cfg.nLeds) :
    Effect s (.pixWrite idx v) ((s.writePix idx.toNat v).setResponse 0 0)
  | ledEncode (n : Word) (hn : n.toNat ≤ s.cfg.nLeds) :
    Effect s (.ledEncode n) ((s.setFrame (frameBytes s n.toNat)).setResponse 0 0)
  | ledTx (bs : List Byte) (hb : s.frame = some bs) : Effect s .ledTx ((s.emitTx bs).setResponse 0 0)
  | golHang : Effect s (.golReset 0) s.setHung
  | golReset (seed : Word) (h0 : seed ≠ 0) :
    Effect s (.golReset seed) ((s.setGrid (seededGrid s.cfg seed) false).setResponse 0 0)
  | golStep (hv : s.gridValid = true) (g : List Bool) (hg : s.cells = some g) :
    Effect s .golStep ((s.setGrid (nextGrid s.cfg g) (gridChanged g (nextGrid s.cfg g))).setResponse 0
      (bitWord (gridChanged g (nextGrid s.cfg g))))

/-- Every next state of an operation is one of its effects. -/
theorem exec_effect {s t : State} {i : Instr} (h : exec i s = .next t) : Effect s i t := by
  cases i with
  | nop => obtain ⟨-, rfl⟩ := execNop_next h; exact .answer _ rfl _
  | reserved cw => obtain ⟨-, rfl⟩ := execReserved_next cw h; exact .error _ rfl .illegal
  | pixWrite idx v =>
    obtain ⟨-, ⟨-, rfl⟩ | ⟨hidx, rfl⟩⟩ := execPixWrite_next h
    · exact .error _ rfl .badIndex
    · exact .pixWrite idx v hidx
  | ledEncode n =>
    obtain ⟨-, ⟨-, rfl⟩ | ⟨hn, rfl⟩⟩ := execLedEncode_next h
    · exact .error _ rfl .badCount
    · exact .ledEncode n hn
  | ledTx =>
    obtain ⟨-, ⟨-, rfl⟩ | ⟨-, bs, hb, rfl⟩⟩ := execLedTx_next h
    · exact .error _ rfl .noFrame
    · exact .ledTx bs hb
  | golReset seed =>
    obtain ⟨-, ⟨rfl, rfl⟩ | ⟨h0, rfl⟩⟩ := execGolReset_next h
    · exact .golHang
    · exact .golReset seed h0
  | golStep =>
    obtain ⟨-, ⟨-, rfl⟩ | ⟨hv, g, hg, rfl⟩⟩ := execGolStep_next h
    · exact .error _ rfl .noGrid
    · exact .golStep hv g hg
  | golRead x y =>
    obtain ⟨-, ⟨-, rfl⟩ | ⟨-, b, -, rfl⟩⟩ := execGolRead_next h
    · exact .error _ rfl .noGrid
    · exact .answer _ rfl _
  | golStatus => obtain ⟨-, -, rfl⟩ := execGolStatus_next h; exact .answer _ rfl _
  | rqdSample k a b c => obtain ⟨-, hk, rfl⟩ := execRqdSample_next h; exact .sample k a b c hk

/-- No operation takes an input or presents one. -/
theorem Effect.inputs_eq {s t : State} {i : Instr} (h : Effect s i t) : t.inputs = s.inputs := by
  cases h <;> simp

/-- Settles O56: each effect has its own piece of state. -/
theorem everyStateHasItsWriters : Obligations.EveryStateHasItsWriters := by
  intro s t i h
  cases exec_effect h with
  | sample k a b c hk => simp [isCommand]
  | error _ hi e => simp [hi]
  | answer _ hi r => simp [hi]
  | pixWrite idx v hidx => simp [isCommand]
  | ledEncode n hn => simp [isCommand]
  | ledTx bs hb => simp [isCommand]
  | golHang => simp [isCommand]
  | golReset seed h0 => simp [isCommand]
  | golStep hv g hg => simp [isCommand, hv]

/-! ## What only a reset undoes -/

/-- t is s with nothing undone that only a reset undoes (10_state.md R30, R32, R37, R38). -/
structure State.Extends (s t : State) : Prop where
  fbValid : s.fbValid = true → t.fbValid = true
  gridValid : s.gridValid = true → t.gridValid = true
  hung : s.cmdState = .hung → t.cmdState = .hung
  ev : ∀ k, s.ev k <+: t.ev k
  tx : s.tx <+: t.tx

theorem State.Extends.refl (s : State) : s.Extends s :=
  ⟨id, id, id, fun _ => List.prefix_rfl, List.prefix_rfl⟩

theorem extends_of_effect {s t : State} {i : Instr} (h : Effect s i t) : s.Extends t := by
  cases h with
  | sample k a b c hk =>
    refine ⟨by simp, by simp, by simp, fun j => ?_, by simp⟩
    by_cases hj : j = k <;> simp [hj]
  | golHang => exact ⟨id, id, fun _ => rfl, fun _ => by simp, by simp⟩
  | _ => constructor <;> simp

/-- A step that takes no reset event does nothing, or it has the effect of the operation it takes. -/
theorem step_effect {s t : State} (hr : ∀ rest, fetch s ≠ some (.reset, rest)) (h : step s = .next t) :
    (s.inputs = [] ∧ t = s) ∨
      ∃ i rest instr, fetch s = some (i, rest) ∧ decode i = some instr ∧ Effect (s.setInputs rest) instr t := by
  obtain ⟨hin, -, ht⟩ | ⟨i, rest, instr, hf, hd, he⟩ | ⟨rest, hf, -⟩ := step_next h
  · exact .inl ⟨hin, ht⟩
  · exact .inr ⟨i, rest, instr, hf, hd, exec_effect he⟩
  · exact absurd hf (hr rest)

theorem setInputs_extends {s t : State} {l : List Input} (h : (s.setInputs l).Extends t) : s.Extends t :=
  ⟨h.fbValid, h.gridValid, h.hung, fun k => by simpa using h.ev k, h.tx⟩

theorem step_extends {s t : State} (hr : ∀ rest, fetch s ≠ some (.reset, rest)) (h : step s = .next t) : s.Extends t := by
  obtain ⟨-, rfl⟩ | ⟨i, rest, instr, -, -, he⟩ := step_effect hr h
  · exact .refl _
  · exact setInputs_extends (extends_of_effect he)

/-- Settles O57: every step without a reset event extends the state. -/
theorem onlyResetClears : Obligations.OnlyResetClears := by
  intro s t hr h
  obtain ⟨hfb, hgrid, hhung, hev, htx⟩ := step_extends hr h
  exact ⟨hfb, hgrid, hhung, hev, htx⟩

/-! ## The invariant at reset -/

theorem reset_ok (n : Nat) : Rqd.reset.ok n = true :=
  (ok_iff n _).2 ⟨Nat.zero_le n, by decide⟩

theorem resetWith_inv {c : Config} (h : c.valid = true) : (State.resetWith c).Inv where
  cfg := h
  knob k := by cases k <;> exact reset_ok _
  events k := by cases k <;> rfl
  pixWf := rfl
  pixBound := by simp [State.resetWith]
  fbKeys := rfl
  fbBytes := by simp [State.resetWith]
  txWhole := Nat.zero_mod _
  txBytes := by simp [State.resetWith]
  gridKeys := rfl
  changedValid _ := rfl
  errCode := rfl
  errResult _ := rfl

/-- Settles O51: the empty memories and logs meet each clause, and a decoder at the detent is in its bounds. -/
theorem invariantHoldsAtReset : Obligations.InvariantHoldsAtReset :=
  ⟨fun _ => resetWith_inv, resetWith_inv rfl⟩

/-! ## The invariant over each update -/

/-- A loaded space lists each element with its index. -/
theorem load_eq_zipIdx {α : Type} (a : Nat) (vs : List α) : Memory.load a vs = (vs.zipIdx a).map Prod.swap := by
  induction vs generalizing a with
  | nil => rfl
  | cons v vs ih => simp [Memory.load, ih]

theorem getElem?_of_mem_load {α : Type} {vs : List α} {e : Nat × α} (he : e ∈ Memory.load 0 vs) : vs[e.1]? = some e.2 := by
  rw [load_eq_zipIdx] at he
  obtain ⟨p, hp, rfl⟩ := List.mem_map.1 he
  exact List.mem_zipIdx_iff_getElem?.1 hp

section
variable {s : State} (h : s.Inv)
include h

theorem setInputs_inv (l : List Input) : (s.setInputs l).Inv :=
  { h with }

theorem setHung_inv : s.setHung.Inv :=
  { h with }

theorem setResponse_inv {e : BitVec 4} {r : Word} (he : (errOfBits e).isSome = true) (hr : e ≠ 0 → r = 0) :
    (s.setResponse e r).Inv :=
  { h with errCode := he, errResult := hr }

theorem setResponse_error_inv (e : ErrCode) : (s.setResponse (errBits e) 0).Inv :=
  setResponse_inv h (by cases e <;> rfl) fun _ => rfl

theorem setResponse_ok_inv (r : Word) : (s.setResponse 0 r).Inv :=
  setResponse_inv h rfl fun h0 => absurd rfl h0

theorem writePix_inv {i : Nat} (hi : i < s.cfg.nLeds) (v : Word) : (s.writePix i v).Inv :=
  { h with
    pixWf := wf_write h.pixWf i v
    pixBound := fun e he => by
      obtain he | rfl := mem_write he
      · exact h.pixBound e he
      · exact hi }

theorem setFrame_inv (n : Nat) : (s.setFrame (frameBytes s n)).Inv :=
  { h with
    fbKeys := by
      rw [setFrame_fb, keys_load, frameBytes_length, ← List.range_eq_range']; rfl
    fbBytes := fun _ he => frameBytes_ok (getElem?_of_mem_load he) }

theorem emitTx_inv {bs : List Byte} (hb : s.frame = some bs) : (s.emitTx bs).Inv := by
  have hl : bs.length = s.cfg.frameLen := (frame_spec hb).1
  refine { h with txWhole := ?_, txBytes := fun e he => ?_ }
  · rw [emitTx_tx, emitTx_cfg, List.length_append, hl, Nat.add_mod_right]
    exact h.txWhole
  · rw [emitTx_tx, List.zipIdx_append, List.mem_append] at he
    obtain he | he := he
    · exact h.txBytes e he
    · -- the sent frame begins at a multiple of FRAME_LEN, so its byte j stands at the index j of a frame
      rw [Nat.zero_add] at he
      obtain ⟨hle, hget⟩ := List.mem_zipIdx_iff_le_and_getElem?_sub.1 he
      have hlt : e.2 - s.tx.length < s.cfg.frameLen := hl ▸ (List.getElem?_eq_some_iff.1 hget).1
      have hidx : e.2 % s.cfg.frameLen = e.2 - s.tx.length := by
        calc e.2 % s.cfg.frameLen
          _ = (s.tx.length + (e.2 - s.tx.length)) % s.cfg.frameLen := by rw [Nat.add_sub_cancel' hle]
          _ = (e.2 - s.tx.length) % s.cfg.frameLen := by rw [Nat.add_mod, h.txWhole, Nat.zero_add, Nat.mod_mod]
          _ = e.2 - s.tx.length := Nat.mod_eq_of_lt hlt
      rw [emitTx_cfg, hidx]
      exact inv_frame_ok h hb hget

theorem setGrid_inv {g : List Bool} (hg : g.length = s.cfg.cells) (ch : Bool) : (s.setGrid g ch).Inv :=
  { h with
    gridKeys := by rw [setGrid_grid, keys_load, hg, ← List.range_eq_range']; rfl
    changedValid := fun hv => nomatch hv }

end

/-! ## The words of a sample (30_encoding.md R76, R77) -/

/-- The fields of an event word are what it was made of: RSV, KIND, SRC, POS. -/
theorem evword_fields (k : Knob) (e : EvKind) (pos : BitVec 8) :
    (evword k.src e pos).extractLsb' 4 4 = 0 ∧ (evword k.src e pos).extractLsb' 0 3 = kindBits e ∧
      knobOfBit ((evword k.src e pos).getLsbD 3) = k ∧ (evword k.src e pos).extractLsb' 8 8 = pos := by
  have hw := Laws.evword_toNat k e pos
  have hsrc := k.src.isLt
  have hkind := (kindBits e).isLt
  refine ⟨BitVec.eq_of_toNat_eq ?_, BitVec.eq_of_toNat_eq ?_, ?_, BitVec.eq_of_toNat_eq ?_⟩
  · rw [BitVec.extractLsb'_toNat, hw, Nat.shiftRight_eq_div_pow]
    show _ = 0
    omega
  · rw [BitVec.extractLsb'_toNat, hw, Nat.shiftRight_zero]
    omega
  · have hbit : (evword k.src e pos).getLsbD 3 = decide (k.src.toNat = 1) := by
      rw [← BitVec.testBit_toNat, hw, Nat.testBit_eq_decide_div_mod_eq, decide_eq_decide]
      omega
    rw [hbit]
    cases k <;> rfl
  · rw [BitVec.extractLsb'_toNat, hw, Nat.shiftRight_eq_div_pow]
    omega

/-- A consumer reads back what an event word was made of. -/
theorem readEvent_evword (k : Knob) (e : EvKind) (pos : BitVec 8) : readEvent (evword k.src e pos) = some (k, e, pos) := by
  obtain ⟨hrsv, hkind, hknob, hpos⟩ := evword_fields k e pos
  rw [readEvent, if_neg (not_not.2 hrsv), hkind, hknob, hpos]
  cases e <;> rfl

theorem rotation_ok {c : Config} {k : Knob} {pos : BitVec 8} (h : pos.toNat ≤ c.notch k) (t : Turn) :
    eventOk c k (evword k.src (clickKind t) pos) = true := by
  cases t <;> simp [eventOk, readEvent_evword, clickKind, h]

theorem button_ok (c : Config) (k : Knob) (p : Bool) : eventOk c k (evword k.src (buttonKind c.btnMode p) 0) = true := by
  unfold buttonKind
  cases hm : c.btnMode <;> cases p <;> simp [eventOk, readEvent_evword, hm]

theorem sample_words_ok {c : Config} (hv : c.valid = true) {k : Knob} (a b l : Bool) {r : Rqd} (h : r.ok (c.notch k) = true) :
    ∀ w ∈ (sampleRqd c k a b l r).2, eventOk c k w = true := by
  intro w hw
  rw [sample_snd, List.mem_append] at hw
  obtain hw | hw := hw
  · have hpos : (quadStep c k (phaseOf c a b) r).1.pos.toNat ≤ c.notch k := by
      have hok := sample_keeps_ok hv (a := a) (b := b) (l := l) h
      rw [sample_fst, ok_iff] at hok
      exact hok.1
    obtain hq | ⟨-, -, -, t, hq⟩ := quad_event (p := phaseOf c a b) h
    · rw [hq] at hw; cases hw
    · rw [hq, List.mem_singleton] at hw
      exact hw ▸ rotation_ok hpos t
  · split at hw
    · cases hw
    · exact List.mem_singleton.1 hw ▸ button_ok c k _

theorem sample_inv {s : State} (h : s.Inv) (k : Knob) (a b c : Bool) :
    ((s.setRqd k (sampleRqd s.cfg k a b c (s.rqd k)).1).emitEv k (sampleRqd s.cfg k a b c (s.rqd k)).2).Inv where
  cfg := by simpa using h.cfg
  knob j := by
    by_cases hj : j = k
    · subst hj; simpa using sample_keeps_ok h.cfg (h.knob j)
    · simpa [hj] using h.knob j
  events j := by
    by_cases hj : j = k
    · subst hj
      rw [emitEv_ev, if_pos rfl, setRqd_ev, emitEv_cfg, setRqd_cfg, List.all_append, h.events j, Bool.true_and, List.all_eq_true]
      exact sample_words_ok h.cfg a b c (h.knob j)
    · simpa [hj] using h.events j
  pixWf := by simpa using h.pixWf
  pixBound := by simpa using h.pixBound
  fbKeys := by simpa using h.fbKeys
  fbBytes := by simpa using h.fbBytes
  txWhole := by simpa using h.txWhole
  txBytes := by simpa using h.txBytes
  gridKeys := by simpa using h.gridKeys
  changedValid := by simpa using h.changedValid
  errCode := by simpa using h.errCode
  errResult := by simpa using h.errResult

/-! ## The invariant over a step -/

theorem Effect.inv {s t : State} {i : Instr} (he : Effect s i t) (h : s.Inv) : t.Inv := by
  cases he with
  | sample k a b c hk => exact sample_inv h k a b c
  | error _ hi e => exact setResponse_error_inv h e
  | answer _ hi r => exact setResponse_ok_inv h r
  | pixWrite idx v hidx => exact setResponse_ok_inv (writePix_inv h hidx v) 0
  | ledEncode n hn => exact setResponse_ok_inv (setFrame_inv h n.toNat) 0
  | ledTx bs hb => exact setResponse_ok_inv (emitTx_inv h hb) 0
  | golHang => exact setHung_inv h
  | golReset seed h0 => exact setResponse_ok_inv (setGrid_inv h (seededGrid_length _ seed) false) 0
  | golStep hv g hg => exact setResponse_ok_inv (setGrid_inv h (nextGrid_length _ g) _) _

/-- Settles O52: every update that a step makes keeps the invariant, and a reset restores it. -/
theorem everyStepKeepsTheInvariant : Obligations.EveryStepKeepsTheInvariant := by
  intro s t h hstep
  obtain ⟨-, -, rfl⟩ | ⟨i, rest, instr, -, -, he⟩ | ⟨rest, -, hv, rfl⟩ := step_next hstep
  · exact h
  · exact (exec_effect he).inv (setInputs_inv h rest)
  · exact setInputs_inv (resetWith_inv hv) rest

/-! ## The bounds of a decoder -/

theorem phaseIdx_eq_idxOf (p : BitVec 2) : phaseIdx p = ([0b00, 0b10, 0b11, 0b01] : List (BitVec 2)).idxOf p := by
  revert p; decide

/-- The bounds of a decoder, clause by clause (10_state.md R43, R44, R46). -/
theorem Rqd.bounds_of_ok {n : Nat} {r : Rqd} (h : r.ok n = true) :
    r.pos.toNat ≤ n ∧ -3 ≤ r.acc.toInt ∧ r.acc.toInt ≤ 3 ∧
      (r.lost = false → r.acc.toInt % 4 = ([0b00, 0b10, 0b11, 0b01] : List (BitVec 2)).idxOf r.phase) ∧
      (r.lost = true → r.acc = 0) := by
  simp only [Rqd.ok, Bool.and_eq_true, decide_eq_true_eq] at h
  obtain ⟨⟨⟨hpos, hlo⟩, hhi⟩, hacc⟩ := h
  refine ⟨hpos, hlo, hhi, fun hl => ?_, fun hl => ?_⟩
  · rw [← phaseIdx_eq_idxOf]; simpa [hl] using hacc
  · simpa [hl] using hacc

/-- A transition that does not end at the detent keeps the count in its bounds. -/
theorem transition_acc_bounds {n : Nat} {r : Rqd} {p : BitVec 2} (h : r.ok n = true) (hp : p ≠ r.phase) (h0 : p ≠ 0b00) :
    -3 ≤ (transition p r).acc.toInt ∧ (transition p r).acc.toInt ≤ 3 := by
  have hcore := core_table p r.phase r.acc r.lost ((ok_iff n r).1 h).2 h0 hp
  simp only [okCore, Bool.and_eq_true, decide_eq_true_eq] at hcore
  rw [transition_acc]
  exact hcore.1

/-- Settles O35: the bounds are a clause of the invariant, which holds after reset and after every step. -/
theorem decoderStaysInItsBounds : Obligations.DecoderStaysInItsBounds := by
  refine ⟨fun s t k h ht => ?_, fun n r p h hp hacc => ?_⟩
  · have hinv : t.Inv := by
      obtain hstep | rfl := ht
      · exact everyStepKeepsTheInvariant s t h hstep
      · exact resetWith_inv h.cfg
    exact Rqd.bounds_of_ok (hinv.knob k)
  · by_contra h0
    obtain ⟨hlo, hhi⟩ := transition_acc_bounds h hp h0
    omega

/-! ## An IDLE block does not stop -/

theorem exec_nop_ok {s : State} (hs : s.Ready) : exec .nop s = .next (s.setResponse 0 0) := by
  rw [exec, execNop, command_of_ready hs]; rfl

theorem exec_completes {s : State} (h : s.Inv) (hidle : s.cmdState = .idle) (i : Instr) : ∃ t, exec i s = .next t := by
  have hs : s.Ready := ⟨h.cfg, hidle⟩
  cases i with
  | nop => exact ⟨_, exec_nop_ok hs⟩
  | reserved cw => exact ⟨_, Laws.exec_reserved hs cw⟩
  | rqdSample k a b c => exact ⟨_, exec_sample_ok h.cfg (h.knob k)⟩
  | pixWrite idx v =>
    obtain hidx | hidx := Nat.lt_or_ge idx.toNat s.cfg.nLeds
    · exact ⟨_, exec_pixWrite_ok hs hidx v⟩
    · exact ⟨_, exec_pixWrite_bad hs hidx v⟩
  | ledEncode n =>
    obtain hn | hn := Nat.lt_or_ge s.cfg.nLeds n.toNat
    · exact ⟨_, exec_ledEncode_bad hs hn⟩
    · exact ⟨_, exec_ledEncode_ok hs hn⟩
  | ledTx =>
    cases hv : s.fbValid with
    | false => exact ⟨_, exec_ledTx_none hs hv⟩
    | true =>
      obtain ⟨bs, hb⟩ := inv_frame h hv
      exact ⟨_, exec_ledTx_ok hs hv hb⟩
  | golReset seed =>
    by_cases h0 : seed = 0
    · subst h0; exact ⟨_, exec_golReset_zero hs⟩
    · exact ⟨_, exec_golReset_ok hs h0⟩
  | golStep =>
    cases hv : s.gridValid with
    | false => exact ⟨_, exec_golStep_none hs hv⟩
    | true =>
      obtain ⟨g, hg⟩ := inv_cells h hv
      exact ⟨_, exec_golStep_ok hs hv hg⟩
  | golRead x y =>
    cases hv : s.gridValid with
    | false => exact ⟨_, exec_golRead_none hs hv x y⟩
    | true =>
      obtain ⟨g, hg⟩ := inv_cells h hv
      obtain ⟨hlen, hcell⟩ := cells_spec hg
      have hlt := cellNumber_lt h.cfg (coord x) (coord y)
      have hread := hcell _ hlt
      rw [List.getElem?_eq_getElem (hlen.symm ▸ hlt)] at hread
      exact ⟨_, exec_golRead_ok hs hv hread⟩
  | golStatus =>
    refine ⟨_, exec_golStatus_ok hs ?_⟩
    cases hv : s.gridValid with
    | false => rfl
    | true =>
      obtain ⟨g, hg⟩ := inv_cells h hv
      rw [hg]; rfl

theorem resetEvent_of_valid {s : State} (hv : s.cfg.valid = true) :
    resetEvent s = .next ((State.resetWith s.cfg).setInputs s.inputs) :=
  guardConfig_of_valid hv _

/-- Settles O53: with the invariant no operation finds a defect, and an IDLE port accepts every command. -/
theorem noOperationStopsAnIdleBlock : Obligations.NoOperationStopsAnIdleBlock := by
  intro s h hidle
  refine ⟨?_, exec_completes h hidle⟩
  cases hf : fetch s with
  | none => exact ⟨s, (step_of_fetch_none hf).trans (guardConfig_of_valid h.cfg _)⟩
  | some taken =>
    obtain ⟨i, rest⟩ := taken
    cases i with
    | pin p => rw [step_of_fetch_instr hf rfl]; exact exec_completes (setInputs_inv h rest) hidle _
    | cmd cw arg => rw [step_of_fetch_instr hf rfl]; exact exec_completes (setInputs_inv h rest) hidle _
    | reset => exact ⟨_, (step_of_fetch_reset hf).trans (resetEvent_of_valid h.cfg)⟩

/-! ## The observation of a run (60_exceptions.md R222) -/

theorem observeFrom_succ {s t : State} (h : step s = .next t) (n : Nat) (rs : List (BitVec 4 × Word)) :
    observeFrom (n + 1) rs s = observeFrom n (nextResponses s rs) t := by
  simp only [observeFrom, h]

theorem nextResponses_pin {s : State} {p : BitVec 4} {rest : List Input} (hf : fetch s = some (.pin p, rest))
    (rs : List (BitVec 4 × Word)) : nextResponses s rs = rs := by
  simp [nextResponses, takesReset, stepResponse, hf]

theorem nextResponses_cmd {s t : State} {cw arg : Word} {rest : List Input} (hf : fetch s = some (.cmd cw arg, rest))
    (h : step s = .next t) (rs : List (BitVec 4 × Word)) :
    nextResponses s rs = if t.cmdState = .idle then rs ++ [(t.err, t.result)] else rs := by
  simp only [nextResponses, takesReset, stepResponse, hf, h]
  cases t.cmdState <;> simp

theorem nextResponses_reset {s : State} {rest : List Input} (hf : fetch s = some (.reset, rest))
    (rs : List (BitVec 4 × Word)) : nextResponses s rs = [] := by
  simp [nextResponses, takesReset, hf]

/-- A reset event that is the oldest input is taken, whatever the port's state. -/
theorem fetch_reset {s : State} {rest : List Input} (h : s.inputs = .reset :: rest) : fetch s = some (.reset, rest) := by
  cases hc : s.cmdState with
  | idle => exact fetch_idle hc h
  | hung => simp [fetch, hc, h, firstReady]

theorem observeFrom_reset {s : State} {rest : List Input} (hv : s.cfg.valid = true) (h : s.inputs = .reset :: rest)
    (n : Nat) (rs : List (BitVec 4 × Word)) : observeFrom (n + 1) rs s = observe n s.cfg rest := by
  have hf := fetch_reset h
  have hstep : step s = .next ((State.resetWith s.cfg).setInputs rest) :=
    (step_of_fetch_reset hf).trans (resetEvent_of_valid hv)
  rw [observeFrom_succ hstep, nextResponses_reset hf, observe]

/-- With no reset presented none is taken. -/
theorem fetch_ne_reset {s : State} (h : Input.reset ∉ s.inputs) (rest : List Input) : fetch s ≠ some (.reset, rest) :=
  fun hf => h (fetch_mem hf).1

/-- A step presents no input, so without a reset presented there is none after it. -/
theorem step_no_reset {s t : State} (hr : Input.reset ∉ s.inputs) (h : step s = .next t) : Input.reset ∉ t.inputs := by
  obtain ⟨-, rfl⟩ | ⟨i, rest, instr, hf, -, he⟩ := step_effect (fetch_ne_reset hr) h
  · exact hr
  · rw [he.inputs_eq]
    exact fun hm => hr ((fetch_mem hf).2 hm)

/-- At a HUNG port no step adds a response. -/
theorem nextResponses_hung {s t : State} (hh : s.cmdState = .hung) (hr : Input.reset ∉ s.inputs) (h : step s = .next t)
    (rs : List (BitVec 4 × Word)) : nextResponses s rs = rs := by
  have ht : t.cmdState = .hung := (step_extends (fetch_ne_reset hr) h).hung hh
  cases hf : fetch s with
  | none => simp [nextResponses, takesReset, stepResponse, hf]
  | some taken =>
    obtain ⟨i, rest⟩ := taken
    cases i with
    | pin p => exact nextResponses_pin hf rs
    | cmd cw arg => rw [nextResponses_cmd hf h, ht]; rfl
    | reset => exact absurd hf (fetch_ne_reset hr rest)

theorem observeFrom_hung {n : Nat} {rs : List (BitVec 4 × Word)} {s : State} {o : Observation} (hh : s.cmdState = .hung)
    (hr : Input.reset ∉ s.inputs) (ho : observeFrom n rs s = some o) : o.responses = rs ∧ o.completed = false := by
  induction n generalizing s with
  | zero =>
    obtain rfl := Option.some.inj ho
    exact ⟨rfl, by simp [Observation.completed, hh]⟩
  | succ n ih =>
    cases hstep : step s with
    | next t =>
      rw [observeFrom_succ hstep, nextResponses_hung hh hr hstep] at ho
      exact ih ((step_extends (fetch_ne_reset hr) hstep).hung hh) (step_no_reset hr hstep) ho
    | fault f => simp [observeFrom, hstep] at ho
    | refused f => simp [observeFrom, hstep] at ho

/-- Settles O58: one step of the observation for each input that can be taken, and the run at a HUNG port by induction on its steps. -/
theorem observationCollectsTheResponses : Obligations.ObservationCollectsTheResponses := by
  refine ⟨fun c l => rfl, ?_, ?_, fun n rs s rest hv hin => observeFrom_reset hv hin n rs,
    fun n rs s o hh hr ho => observeFrom_hung hh hr ho⟩
  · intro n rs s t p rest hidle hin hstep
    rw [observeFrom_succ hstep, nextResponses_pin (fetch_idle hidle hin)]
  · intro n rs s t cw arg rest hidle hin hstep
    rw [observeFrom_succ hstep, nextResponses_cmd (fetch_idle hidle hin) hstep]

end Sys2Proof.Machine
end

section
/-! SUPPORT. The obligations of the memory (20_memory.md): what a PIX.WRITE leaves of the frame that LED.TX sends, the commands that
change their response only, a command that is repeated, and the agents, which commute. -/

namespace Sys2Proof.Machine

/-! ## LED.TX after a PIX.WRITE (70_reset_and_hazards.md R242) -/

/-- A PIX.WRITE, with or without an error, leaves all that LED.TX reads. -/
theorem pixWrite_keeps_ledTx_operands {s t : State} {idx : Half} {v : Word} (h : exec (.pixWrite idx v) s = .next t) :
    t.Ready ∧ t.fbValid = s.fbValid ∧ t.frame = s.frame ∧ t.tx = s.tx := by
  obtain ⟨hs, ⟨-, rfl⟩ | ⟨-, rfl⟩⟩ := execPixWrite_next h
  · exact ⟨hs, rfl, rfl, rfl⟩
  · exact ⟨hs, rfl, rfl, rfl⟩

/-- LED.TX reads FB_VALID, FB and TX, and nothing else of a state that is ready. -/
theorem exec_ledTx_congr {s t u : State} (ht : t.Ready) (hvalid : t.fbValid = s.fbValid) (hframe : t.frame = s.frame)
    (htx : t.tx = s.tx) (h : exec .ledTx s = .next u) : ∃ u', exec .ledTx t = .next u' ∧ u'.tx = u.tx ∧ u'.err = u.err := by
  obtain ⟨-, ⟨hv, rfl⟩ | ⟨hv, bs, hb, rfl⟩⟩ := execLedTx_next h
  · exact ⟨_, exec_ledTx_none ht (hvalid.trans hv), by simp [htx], rfl⟩
  · exact ⟨_, exec_ledTx_ok ht (hvalid.trans hv) (hframe.trans hb), by simp [htx], rfl⟩

/-- Settles O19: LED.TX reads nothing that PIX.WRITE writes. -/
theorem pixWriteDoesNotReachTheOldFrame : Obligations.PixWriteDoesNotReachTheOldFrame := by
  intro s t u idx v hwrite htx
  obtain ⟨ht, hvalid, hframe, hlog⟩ := pixWrite_keeps_ledTx_operands hwrite
  exact exec_ledTx_congr ht hvalid hframe hlog htx

/-! ## Commands that change ERR and RESULT only -/

/-- Settles O40: of the effects an operation can have, these four have an error or an answer only. -/
theorem readingCommandsChangeTheResponseOnly : Obligations.ReadingCommandsChangeTheResponseOnly := by
  intro s t i hi h
  have hresponse : ∃ e r, t = s.setResponse e r := by
    cases exec_effect h with
    | error _ _ e => exact ⟨_, _, rfl⟩
    | answer _ _ r => exact ⟨_, _, rfl⟩
    | _ => cases hi
  obtain ⟨e, r, rfl⟩ := hresponse
  exact ⟨rfl, fun _ => rfl, fun _ => rfl, fun _ => rfl⟩

/-! ## A command repeated (20_memory.md R58) -/

/-- Writing the same value at the same index again changes nothing. -/
theorem write_write {α : Type} [DecidableEq α] {blank : Option α} {m : Memory α} (h : Memory.wf blank m = true) (a : Nat) (v : α) :
    Memory.write blank (Memory.write blank m a v) a v = Memory.write blank m a v := by
  have hw := wf_write h a v
  refine wfFrom_ext (wf_write hw a v) hw fun b => ?_
  rw [read_write hw, read_write h]
  split_ifs <;> rfl

theorem writePix_writePix {s : State} (h : Memory.wf pixBlank s.pix = true) (i : Nat) (v : Word) :
    (s.writePix i v).writePix i v = s.writePix i v := by
  rw [State.writePix, writePix_pix, write_write h]
  rfl

theorem exec_pixWrite_repeat {s t : State} {idx : Half} {v : Word} (hwf : Memory.wf pixBlank s.pix = true)
    (h : exec (.pixWrite idx v) s = .next t) : exec (.pixWrite idx v) t = .next t := by
  obtain ⟨hs, ⟨hidx, rfl⟩ | ⟨hidx, rfl⟩⟩ := execPixWrite_next h
  · exact exec_pixWrite_bad hs hidx v
  · calc exec (.pixWrite idx v) ((s.writePix idx.toNat v).setResponse 0 0)
      _ = .next (((s.writePix idx.toNat v).writePix idx.toNat v).setResponse 0 0) :=
        exec_pixWrite_ok (s := (s.writePix _ v).setResponse 0 0) hs hidx v
      _ = .next ((s.writePix idx.toNat v).setResponse 0 0) := by rw [writePix_writePix hwf]

/-- The frame is made from PIX, which LED.ENCODE does not write. -/
theorem exec_ledEncode_repeat {s t : State} {n : Word} (h : exec (.ledEncode n) s = .next t) :
    exec (.ledEncode n) t = .next t := by
  obtain ⟨hs, ⟨hn, rfl⟩ | ⟨hn, rfl⟩⟩ := execLedEncode_next h
  · exact exec_ledEncode_bad hs hn
  · exact exec_ledEncode_ok (s := (s.setFrame _).setResponse 0 0) hs hn

/-- The seeded grid is made from the seed and the configuration. -/
theorem exec_golReset_repeat {s t : State} {seed : Word} (h0 : seed ≠ 0) (h : exec (.golReset seed) s = .next t) :
    exec (.golReset seed) t = .next t := by
  obtain ⟨hs, ⟨hz, -⟩ | ⟨-, rfl⟩⟩ := execGolReset_next h
  · exact absurd hz h0
  · exact exec_golReset_ok (s := (s.setGrid _ false).setResponse 0 0) hs h0

theorem exec_golRead_repeat {s t : State} {x y : Half} (h : exec (.golRead x y) s = .next t) :
    exec (.golRead x y) t = .next t := by
  obtain ⟨hs, ⟨hv, rfl⟩ | ⟨hv, b, hb, rfl⟩⟩ := execGolRead_next h
  · exact exec_golRead_none hs hv x y
  · exact exec_golRead_ok (s := s.setResponse 0 _) hs hv hb

theorem exec_golStatus_repeat {s t : State} (h : exec .golStatus s = .next t) : exec .golStatus t = .next t := by
  obtain ⟨hs, hgrid, rfl⟩ := execGolStatus_next h
  exact exec_golStatus_ok (s := s.setResponse 0 _) hs hgrid

/-- A second LED.TX sends the frame once more. -/
theorem exec_ledTx_repeat {s t : State} (hv : s.fbValid = true) (h : exec .ledTx s = .next t) :
    ∃ bs, t.tx = s.tx ++ bs ∧ exec .ledTx t = .next { t with tx := s.tx ++ bs ++ bs } := by
  obtain ⟨hs, ⟨hv', -⟩ | ⟨-, bs, hb, rfl⟩⟩ := execLedTx_next h
  · rw [hv] at hv'; cases hv'
  · exact ⟨bs, rfl, exec_ledTx_ok (s := (s.emitTx bs).setResponse 0 0) hs hv hb⟩

/-- Settles O44: none of these commands reads what it writes, but for LED.TX, which appends to TX. -/
theorem repeatingACommandChangesNothingMore : Obligations.RepeatingACommandChangesNothingMore := by
  refine ⟨fun s t i hinv hi h => ?_, fun s t => exec_ledTx_repeat⟩
  cases i with
  | golRead x y => exact exec_golRead_repeat h
  | golStatus => exact exec_golStatus_repeat h
  | pixWrite idx v => exact exec_pixWrite_repeat hinv.pixWf h
  | ledEncode n => exact exec_ledEncode_repeat h
  | golReset seed => exact exec_golReset_repeat (of_decide_eq_true hi) h
  | _ => cases hi

/-! ## The agents commute (20_memory.md R55) -/

section
variable (s : State) (k : Knob) (r : Rqd) (ws : List Half)

/-! What a sample writes, RQD[k] and EV[k], no command's update writes, so the two can be made in either order. -/

theorem setResponse_sample (e : BitVec 4) (w : Word) :
    ((s.setResponse e w).setRqd k r).emitEv k ws = ((s.setRqd k r).emitEv k ws).setResponse e w := by cases k <;> rfl
theorem writePix_sample (i : Nat) (v : Word) :
    ((s.writePix i v).setRqd k r).emitEv k ws = ((s.setRqd k r).emitEv k ws).writePix i v := by cases k <;> rfl
theorem setFrame_sample (bs : List Byte) :
    ((s.setFrame bs).setRqd k r).emitEv k ws = ((s.setRqd k r).emitEv k ws).setFrame bs := by cases k <;> rfl
theorem emitTx_sample (bs : List Byte) :
    ((s.emitTx bs).setRqd k r).emitEv k ws = ((s.setRqd k r).emitEv k ws).emitTx bs := by cases k <;> rfl
theorem setGrid_sample (g : List Bool) (ch : Bool) :
    ((s.setGrid g ch).setRqd k r).emitEv k ws = ((s.setRqd k r).emitEv k ws).setGrid g ch := by cases k <;> rfl
theorem setHung_sample :
    (s.setHung.setRqd k r).emitEv k ws = ((s.setRqd k r).emitEv k ws).setHung := by cases k <;> rfl

/-- The frame of an LED.ENCODE does not depend on a decoder. -/
theorem frameBytes_sample (n : Nat) : frameBytes ((s.setRqd k r).emitEv k ws) n = frameBytes s n := by
  simp [frameBytes, suppliedPixel]

end

/-- Only a ready port answers a command with a next state. -/
theorem ready_of_exec_command {s u : State} {i : Instr} (hi : isCommand i = true) (h : exec i s = .next u) : s.Ready := by
  have hv : s.cfg.valid = true := by
    by_contra hv
    rw [exec_of_invalid (Bool.eq_false_of_not_eq_true hv)] at h
    cases h
  refine ⟨hv, ?_⟩
  cases hc : s.cmdState with
  | idle => rfl
  | hung => rw [exec_hung hv hc hi] at h; cases h

/-- A command does not see what a sample has written, and leaves it. -/
theorem exec_command_sample {s u : State} {i : Instr} (hi : isCommand i = true) (h : exec i s = .next u) (k : Knob) (r : Rqd)
    (ws : List Half) : exec i ((s.setRqd k r).emitEv k ws) = .next ((u.setRqd k r).emitEv k ws) := by
  have hs : ((s.setRqd k r).emitEv k ws).Ready := by simpa [State.Ready] using ready_of_exec_command hi h
  cases i with
  | rqdSample k a b c => cases hi
  | nop =>
    obtain ⟨-, rfl⟩ := execNop_next h
    rw [setResponse_sample, exec_nop_ok hs]
  | reserved cw =>
    obtain ⟨-, rfl⟩ := execReserved_next cw h
    rw [setResponse_sample]
    exact Laws.exec_reserved hs cw
  | pixWrite idx v =>
    obtain ⟨-, ⟨hidx, rfl⟩ | ⟨hidx, rfl⟩⟩ := execPixWrite_next h
    · rw [setResponse_sample, exec_pixWrite_bad hs (by simpa using hidx)]
    · rw [setResponse_sample, writePix_sample, exec_pixWrite_ok hs (by simpa using hidx)]
  | ledEncode n =>
    obtain ⟨-, ⟨hn, rfl⟩ | ⟨hn, rfl⟩⟩ := execLedEncode_next h
    · rw [setResponse_sample, exec_ledEncode_bad hs (by simpa using hn)]
    · rw [setResponse_sample, setFrame_sample, exec_ledEncode_ok hs (by simpa using hn), frameBytes_sample]
  | ledTx =>
    obtain ⟨-, ⟨hv, rfl⟩ | ⟨hv, bs, hb, rfl⟩⟩ := execLedTx_next h
    · rw [setResponse_sample, exec_ledTx_none hs (by simpa using hv)]
    · rw [setResponse_sample, emitTx_sample, exec_ledTx_ok hs (by simpa using hv) (by simpa using hb)]
  | golReset seed =>
    obtain ⟨-, ⟨rfl, rfl⟩ | ⟨h0, rfl⟩⟩ := execGolReset_next h
    · rw [setHung_sample]
      exact exec_golReset_zero hs
    · rw [setResponse_sample, setGrid_sample, exec_golReset_ok hs h0, emitEv_cfg, setRqd_cfg]
  | golStep =>
    obtain ⟨-, ⟨hv, rfl⟩ | ⟨hv, g, hg, rfl⟩⟩ := execGolStep_next h
    · rw [setResponse_sample, exec_golStep_none hs (by simpa using hv)]
    · rw [setResponse_sample, setGrid_sample,
        exec_golStep_ok hs (by simpa using hv) (by simpa using hg), emitEv_cfg, setRqd_cfg]
  | golRead x y =>
    obtain ⟨-, ⟨hv, rfl⟩ | ⟨hv, b, hb, rfl⟩⟩ := execGolRead_next h
    · rw [setResponse_sample, exec_golRead_none hs (by simpa using hv)]
    · rw [setResponse_sample, exec_golRead_ok hs (by simpa using hv) (by simpa using hb)]
  | golStatus =>
    obtain ⟨-, hgrid, rfl⟩ := execGolStatus_next h
    rw [setResponse_sample, exec_golStatus_ok hs (by simpa using hgrid)]
    simp

/-- No operation changes the parameters. -/
theorem Effect.cfg_eq {s t : State} {i : Instr} (h : Effect s i t) : t.cfg = s.cfg := by
  cases h <;> simp

/-- A sample reads the configuration and its own decoder, and nothing else. -/
theorem exec_sample_congr {s u : State} {k : Knob} (hcfg : u.cfg = s.cfg) (hrqd : u.rqd k = s.rqd k) (hv : s.cfg.valid = true)
    (hk : (s.rqd k).ok (s.cfg.notch k) = true) (a b c : Bool) :
    exec (.rqdSample k a b c) u =
      .next ((u.setRqd k (sampleRqd s.cfg k a b c (s.rqd k)).1).emitEv k (sampleRqd s.cfg k a b c (s.rqd k)).2) := by
  rw [← hcfg, ← hrqd] at hk ⊢
  exact exec_sample_ok (hcfg ▸ hv) hk

theorem sample_command_commute {s t u : State} {k : Knob} {a b c : Bool} {i : Instr} (hi : isCommand i = true)
    (hsample : exec (.rqdSample k a b c) s = .next t) (hcommand : exec i s = .next u) :
    ∃ v, exec i t = .next v ∧ exec (.rqdSample k a b c) u = .next v := by
  obtain ⟨hv, hk, rfl⟩ := execRqdSample_next hsample
  obtain ⟨-, -, -, -, -, -, hknob, -⟩ := everyStateHasItsWriters s u i hcommand
  obtain ⟨hrqd, -⟩ := hknob hi k
  exact ⟨_, exec_command_sample hi hcommand k _ _, exec_sample_congr (exec_effect hcommand).cfg_eq hrqd hv hk a b c⟩

theorem red_yellow_commute {s t u : State} {a b c a' b' c' : Bool} (hred : exec (.rqdSample .red a b c) s = .next t)
    (hyellow : exec (.rqdSample .yellow a' b' c') s = .next u) :
    ∃ v, exec (.rqdSample .yellow a' b' c') t = .next v ∧ exec (.rqdSample .red a b c) u = .next v := by
  obtain ⟨hv, hokRed, rfl⟩ := execRqdSample_next hred
  obtain ⟨-, hokYellow, rfl⟩ := execRqdSample_next hyellow
  exact ⟨_, exec_sample_congr (by simp) (by simp) hv hokYellow a' b' c', exec_sample_congr (by simp) (by simp) hv hokRed a b c⟩

/-- Settles O55: each agent reads and writes its own state only. -/
theorem agentsCommute : Obligations.AgentsCommute :=
  ⟨fun _ _ _ _ _ _ _ _ => sample_command_commute, fun _ _ _ _ _ _ _ _ _ => red_yellow_commute⟩

end Sys2Proof.Machine
end

section
/-! SUPPORT. The obligations of the encoding (30_encoding.md): what each command word and each pin pattern decodes to, the two round
trips, the illegal words, the event words, and the pseudo-operations PIX.CLEAR, RQD.CW and RQD.CCW. -/

namespace Sys2Proof.Machine

/-! ## The decoder on each legal form (30_encoding.md R83) -/

theorem decodeCmd_nop (arg : Word) : decodeCmd 0x0 arg = .nop := rfl
theorem decodeCmd_ledEncode (arg : Word) : decodeCmd 0x2 arg = .ledEncode arg := rfl
theorem decodeCmd_ledTx (arg : Word) : decodeCmd 0x3 arg = .ledTx := rfl
theorem decodeCmd_golReset (arg : Word) : decodeCmd 0x4 arg = .golReset arg := rfl
theorem decodeCmd_golStep (arg : Word) : decodeCmd 0x5 arg = .golStep := rfl
theorem decodeCmd_golRead (arg : Word) : decodeCmd 0x6 arg = .golRead (argLow arg) (argHigh arg) := rfl
theorem decodeCmd_golStatus (arg : Word) : decodeCmd 0x7 arg = .golStatus := rfl

theorem opcOf_pixWord (idx : Half) : opcOf (idx ++ 0x0001#16) = 1 := by
  apply BitVec.eq_of_toNat_eq
  rw [Laws.opcOf_toNat, Laws.toNat_append_add]
  show (idx.toNat * 65536 + 1) % 16 = 1
  omega

/-- The legal command words, by the rows of the opcode table (30_encoding.md R73): every legal word is among them (`legalWord_of_legal`). -/
inductive LegalWord : Word → Prop where
  | nop : LegalWord 0x0
  | pixWrite (idx : Half) : LegalWord (idx ++ 0x0001#16)
  | ledEncode : LegalWord 0x2
  | ledTx : LegalWord 0x3
  | golReset : LegalWord 0x4
  | golStep : LegalWord 0x5
  | golRead : LegalWord 0x6
  | golStatus : LegalWord 0x7

theorem legalWord_of_legal {cw : Word} (h : illegalWord cw = false) : LegalWord cw := by
  obtain ⟨n, hn, h1, rfl⟩ | ⟨idx, rfl⟩ := Laws.legal_cases h
  · match n with
    | 0 => exact .nop
    | 1 => exact absurd rfl h1
    | 2 => exact .ledEncode
    | 3 => exact .ledTx
    | 4 => exact .golReset
    | 5 => exact .golStep
    | 6 => exact .golRead
    | 7 => exact .golStatus
  · exact .pixWrite idx

theorem decodePin_pinWord (k : Knob) (a b c : Bool) : decodePin (pinWord k a b c) = .rqdSample k a b c := by
  obtain ⟨hk, hc, hb, ha⟩ := Laws.pinWord_bits k a b c
  rw [decodePin, hk, hc, hb, ha]
  cases k <;> rfl

/-- The four bits of a PIN pattern are all of it (30_encoding.md R75). -/
theorem encode_decodePin : ∀ p : BitVec 4, encode (decodePin p) = .pin p := by decide

/-! ## The round trips (30_encoding.md R83, R86) -/

/-- Settles O1: by the rows of the opcode table. -/
theorem decodeOfEncodeIsTheInstruction : Obligations.DecodeOfEncodeIsTheInstruction := by
  intro i hwf
  cases i with
  | nop => exact congrArg some (decodeCmd_nop 0)
  | pixWrite idx value => exact congrArg some (Laws.decode_pix idx value)
  | ledEncode count => exact congrArg some (decodeCmd_ledEncode count)
  | ledTx => exact congrArg some (decodeCmd_ledTx 0)
  | golReset seed => exact congrArg some (decodeCmd_golReset seed)
  | golStep => exact congrArg some (decodeCmd_golStep 0)
  | golRead x y => rw [encode, decode, decodeCmd_golRead, Laws.argLow_append, Laws.argHigh_append]
  | golStatus => exact congrArg some (decodeCmd_golStatus 0)
  | rqdSample k a b c => exact congrArg some (decodePin_pinWord k a b c)
  | reserved cw => exact congrArg some (Laws.decode_illegal hwf 0)

theorem encode_injective {i j : Instr} (hi : i.wf = true) (hj : j.wf = true) (h : encode i = encode j) : i = j := by
  have hdec := decodeOfEncodeIsTheInstruction i hi
  rw [h, decodeOfEncodeIsTheInstruction j hj] at hdec
  exact (Option.some.inj hdec).symm

theorem decodeCmd_wf (cw arg : Word) : (decodeCmd cw arg).wf = true := by
  cases h : illegalWord cw with
  | true => rw [Laws.decode_illegal h]; exact h
  | false =>
    cases legalWord_of_legal h with
    | pixWrite idx => rw [Laws.decode_pix]; rfl
    | _ => rfl

/-- The encoder gives a legal command word back, and ARG where the operation uses it; elsewhere it emits 0 (30_encoding.md R72, R86). -/
theorem encode_decodeCmd_legal {cw : Word} (h : illegalWord cw = false) (arg : Word) :
    encode (decodeCmd cw arg) = .cmd cw (if opcOf cw ∈ [1, 2, 4, 6] then arg else 0) := by
  cases legalWord_of_legal h with
  | pixWrite idx => rw [Laws.decode_pix, opcOf_pixWord]; rfl
  | golRead => rw [decodeCmd_golRead, encode, Laws.append_arg]; rfl
  | _ => rfl

/-- Settles O2: an illegal word is held whole by the reserved row, and a legal one is one of the rows' words. -/
theorem encodeOfDecodeKeepsEveryUsedBit : Obligations.EncodeOfDecodeKeepsEveryUsedBit := by
  refine ⟨fun cw arg => ⟨decodeCmd_wf cw arg, ?_⟩, encode_decodePin⟩
  cases h : illegalWord cw with
  | true => exact ⟨0, by rw [Laws.decode_illegal h, encode], fun hlegal => nomatch hlegal⟩
  | false => exact ⟨_, encode_decodeCmd_legal h arg, fun _ huses => if_pos huses⟩

/-! ## The decoder's procedure and the illegal words (30_encoding.md R74, R83) -/

theorem illegalWord_iff (cw : Word) : illegalWord cw = true ↔
    (8 ≤ cw.toNat % 16 ∨ cw.toNat / 16 % 4096 ≠ 0 ∨ (cw.toNat % 16 ≠ 1 ∧ cw.toNat / 65536 ≠ 0)) := by
  simp only [illegalWord, Bool.or_eq_true, Bool.and_eq_true, decide_eq_true_eq, or_assoc]

/-- Settles O3: the illegal words by what makes them so, then the legal forms row by row. -/
theorem decoderFollowsTheProcedure : Obligations.DecoderFollowsTheProcedure := by
  refine ⟨fun cw arg h => Laws.decode_illegal ((illegalWord_iff cw).2 (.inl h)) arg,
    fun cw arg h => Laws.decode_illegal ((illegalWord_iff cw).2 (.inr (.inl h))) arg,
    fun cw arg h1 h => Laws.decode_illegal ((illegalWord_iff cw).2 (.inr (.inr ⟨h1, h⟩))) arg,
    decodeCmd_nop, Laws.decode_pix, decodeCmd_ledEncode, decodeCmd_ledTx, decodeCmd_golReset, decodeCmd_golStep, decodeCmd_golRead,
    decodeCmd_golStatus, fun k c b a => ?_⟩
  cases k with
  | false => exact decodePin_pinWord .red a b c
  | true => exact decodePin_pinWord .yellow a b c

/-- A legal word decodes to the operation of its OPC field. -/
theorem opcodeOf_decodeCmd_legal {cw : Word} (h : illegalWord cw = false) (arg : Word) :
    opcodeOf (decodeCmd cw arg) = some (opcOf cw) := by
  cases legalWord_of_legal h with
  | pixWrite idx => rw [Laws.decode_pix, opcOf_pixWord]; rfl
  | _ => rfl

theorem decodeCmd_reserved_iff (cw arg : Word) : (∃ w, decodeCmd cw arg = .reserved w) ↔ illegalWord cw = true := by
  refine ⟨fun ⟨w, hw⟩ => ?_, fun h => ⟨cw, Laws.decode_illegal h arg⟩⟩
  by_contra hlegal
  have hop := opcodeOf_decodeCmd_legal (Bool.eq_false_of_not_eq_true hlegal) arg
  rw [hw] at hop
  cases hop

/-- ARG of a legal word is read back from the encoding where the operation uses it, and is lost where it does not (30_encoding.md R72). -/
theorem decodeCmd_arg_ignored_or_determined {cw : Word} (h : illegalWord cw = false) (arg : Word) :
    (∀ arg', decodeCmd cw arg' = decodeCmd cw arg) ∨ ∀ arg', decodeCmd cw arg' = decodeCmd cw arg → arg' = arg := by
  by_cases huses : opcOf cw ∈ [1, 2, 4, 6]
  · refine .inr fun arg' heq => ?_
    have henc := congrArg encode heq
    rw [encode_decodeCmd_legal h, encode_decodeCmd_legal h, if_pos huses, if_pos huses] at henc
    injection henc
  · refine .inl fun arg' => encode_injective (decodeCmd_wf cw arg') (decodeCmd_wf cw arg) ?_
    rw [encode_decodeCmd_legal h, encode_decodeCmd_legal h, if_neg huses, if_neg huses]

/-- Settles O4: the reserved row is the only one without an operation code of its own. -/
theorem exactlyTheIllegalWordsAreIllegal : Obligations.ExactlyTheIllegalWordsAreIllegal := by
  intro cw arg
  exact ⟨(decodeCmd_reserved_iff cw arg).trans (illegalWord_iff cw), fun s hs hi => Laws.exec_illegal hs hi arg,
    fun h => ⟨opcodeOf_decodeCmd_legal h arg, decodeCmd_arg_ignored_or_determined h arg⟩⟩

/-- Settles O5: fixed words, each evaluated. -/
theorem sampleWordsDecode : Obligations.SampleWordsDecode := by
  unfold Obligations.SampleWordsDecode
  decide

/-! ## Event words (30_encoding.md R76, R77) -/

theorem readEvent_of_rsv {w : Half} (h : w.toNat / 16 % 16 ≠ 0) : readEvent w = none := by
  have hrsv : w.extractLsb' 4 4 ≠ 0 := by
    rw [Laws.bv_ne_zero, BitVec.extractLsb'_toNat, Nat.shiftRight_eq_div_pow]
    exact h
  rw [readEvent, if_pos hrsv]

theorem kindBits_lt (e : EvKind) : (kindBits e).toNat < 5 := by
  cases e <;> decide

theorem readEvent_of_kind {w : Half} (h : 5 ≤ w.toNat % 8) : readEvent w = none := by
  have hkind : ∀ e, kindBits e ≠ w.extractLsb' 0 3 := by
    intro e he
    have hlt := kindBits_lt e
    rw [he, BitVec.extractLsb'_toNat, Nat.shiftRight_zero] at hlt
    omega
  simp [readEvent, hkind]

/-- Settles O6: what evword packs a consumer reads back, and no kind has the number of a refused one. -/
theorem eventWordsReadBack : Obligations.EventWordsReadBack := by
  refine ⟨readEvent_evword, fun w h => ?_, Laws.evword_toNat, rfl, rfl, rfl, rfl⟩
  obtain hrsv | hkind := h
  · exact readEvent_of_rsv hrsv
  · exact readEvent_of_kind hkind

/-! ## PIX.CLEAR (30_encoding.md R85) -/

theorem execAll_cons {s t : State} {i : Instr} (h : exec i s = .next t) (is : List Instr) : execAll (i :: is) s = execAll is t := by
  rw [execAll, h]

/-- PIX.WRITE of one value at each index of a list. -/
def pixWrites (v : Word) (l : List Nat) : List Instr :=
  l.map fun i => .pixWrite (BitVec.ofNat 16 i) v

theorem execAll_pixWrites {s : State} (hinv : s.Inv) (hidle : s.cmdState = .idle) (hfit : s.cfg.nLeds ≤ 65536) (v : Word)
    {l : List Nat} (hl : ∀ i ∈ l, i < s.cfg.nLeds) :
    ∃ t, execAll (pixWrites v l) s = .next t ∧ (∀ j, t.readPix j = if j ∈ l then v else s.readPix j) ∧ t.fb = s.fb ∧
      t.err = if l = [] then s.err else 0 := by
  induction l generalizing s with
  | nil => exact ⟨s, rfl, fun j => by simp, rfl, rfl⟩
  | cons i l ih =>
    obtain ⟨hi, hl⟩ := List.forall_mem_cons.1 hl
    have hidx : (BitVec.ofNat 16 i).toNat = i := by
      rw [BitVec.toNat_ofNat]
      exact Nat.mod_eq_of_lt (by omega)
    have hexec := exec_pixWrite_ok ⟨hinv.cfg, hidle⟩ (hidx.symm ▸ hi) v
    rw [hidx] at hexec
    obtain ⟨t, ht, hpix, hfb, herr⟩ :=
      ih (s := (s.writePix i v).setResponse 0 0) (setResponse_ok_inv (writePix_inv hinv hi v) 0) hidle hfit hl
    refine ⟨t, (execAll_cons hexec _).trans ht, fun j => ?_, hfb, ?_⟩
    · rw [hpix, setResponse_readPix, readPix_writePix hinv.pixWf]
      by_cases hj : j ∈ l <;> by_cases hji : j = i <;> simp [hj, hji]
    · rw [herr, setResponse_err, ite_self, if_neg (List.cons_ne_nil i l)]

/-- No word of PIX is listed outside its bounds, so each reads its reset value there. -/
theorem readPix_of_ge {s : State} (h : s.Inv) {j : Nat} (hj : s.cfg.nLeds ≤ j) : s.readPix j = 0 := by
  have hfind : Memory.find j s.pix = none := by
    by_contra hne
    obtain ⟨v, hv⟩ := Option.ne_none_iff_exists'.1 hne
    have := h.pixBound _ (mem_of_find hv)
    omega
  rw [State.readPix, Memory.read, hfind]
  rfl

/-- A panel has a pixel (00_scope.md R11). -/
theorem valid_nLeds {c : Config} (h : c.valid = true) : c.nLeds ≠ 0 := by
  simp [Config.valid] at h
  omega

/-- Settles O20: one PIX.WRITE for each index, and outside the bounds PIX reads 0 by the invariant. -/
theorem pixClearLeavesEveryPixelOff : Obligations.PixClearLeavesEveryPixelOff := by
  intro s is hinv hidle hexp
  obtain ⟨hfit, rfl⟩ : s.cfg.nLeds ≤ 65536 ∧ pixWrites 0 (List.range s.cfg.nLeds) = is := by
    simpa [expandPseudo, expandPixClear, pixWrites] using hexp
  obtain ⟨t, ht, hpix, hfb, herr⟩ := execAll_pixWrites hinv hidle hfit 0 (l := List.range s.cfg.nLeds) fun i => List.mem_range.1
  refine ⟨by simp [pixWrites], t, ht, fun j => ?_, hfb, by rw [herr, if_neg (mt List.range_eq_nil.1 (valid_nLeds hinv.cfg))]⟩
  rw [hpix]
  split_ifs with hj
  · rfl
  · exact readPix_of_ge hinv (by simpa using hj)

/-! ## RQD.CW and RQD.CCW (30_encoding.md R85) -/

/-- The quadrature parts of samples one after another, by the phases they bring, with the words they emit. -/
def quadRun (c : Config) (k : Knob) : List (BitVec 2) → Rqd → Rqd × List Half
  | [], r => (r, [])
  | p :: ps, r =>
    let q := quadStep c k p r
    let t := quadRun c k ps q.1
    (t.1, q.2 ++ t.2)

/-- A sample with the button level as recorded has a quadrature part only. -/
theorem sample_of_recorded_button {c : Config} {k : Knob} {a b level : Bool} {r : Rqd} (h : (level == c.btnActive k) = r.btn) :
    sampleRqd c k a b level r = quadStep c k (phaseOf c a b) r := by
  apply Prod.ext
  · rw [sample_fst, h, ← quad_btn c k (phaseOf c a b) r]
  · rw [sample_snd, if_pos h, List.append_nil]

/-- The samples of one knob at the pin levels ps (A, then B), each with the same level of BTN. -/
def samplesAt (k : Knob) (level : Bool) (ps : List (Bool × Bool)) : List Instr :=
  ps.map fun p => .rqdSample k p.1 p.2 level

/-- The phases that the pin levels ps bring. -/
def phasesOf (c : Config) (ps : List (Bool × Bool)) : List (BitVec 2) :=
  ps.map fun p => phaseOf c p.1 p.2

theorem execAll_samplesAt {s : State} {k : Knob} {level : Bool} (hv : s.cfg.valid = true) (hok : (s.rqd k).ok (s.cfg.notch k) = true)
    (hbtn : (level == s.cfg.btnActive k) = (s.rqd k).btn) (ps : List (Bool × Bool)) :
    ∃ t, execAll (samplesAt k level ps) s = .next t ∧ t.rqd k = (quadRun s.cfg k (phasesOf s.cfg ps) (s.rqd k)).1 ∧
      t.ev k = s.ev k ++ (quadRun s.cfg k (phasesOf s.cfg ps) (s.rqd k)).2 := by
  induction ps generalizing s with
  | nil => exact ⟨s, rfl, rfl, (List.append_nil _).symm⟩
  | cons p ps ih =>
    have hexec := exec_sample_ok (a := p.1) (b := p.2) (c := level) hv hok
    have hkeep := sample_keeps_ok (a := p.1) (b := p.2) (l := level) hv hok
    rw [sample_of_recorded_button hbtn] at hexec hkeep
    generalize hq : quadStep s.cfg k (phaseOf s.cfg p.1 p.2) (s.rqd k) = q at hexec hkeep
    have hqbtn : q.1.btn = (s.rqd k).btn := hq ▸ quad_btn ..
    obtain ⟨t, ht, hrqd, hev⟩ := ih (s := (s.setRqd k q.1).emitEv k q.2) (by simpa using hv) (by simpa using hkeep)
      (by simpa [hqbtn] using hbtn)
    refine ⟨t, (execAll_cons hexec _).trans ht, ?_, ?_⟩
    · simpa [phasesOf, quadRun, hq] using hrqd
    · simpa [phasesOf, quadRun, hq] using hev

/-- At the detent with nothing lost, nothing is counted (10_state.md R44, R46). -/
theorem acc_of_detent {n : Nat} {r : Rqd} (h : r.ok n = true) (hphase : r.phase = 0b00) (hlost : r.lost = false) : r.acc = 0 := by
  obtain ⟨-, hlo, hhi, hmod, -⟩ := Rqd.bounds_of_ok h
  have hzero : r.acc.toInt % 4 = 0 := by simpa [hphase] using hmod hlost
  apply BitVec.eq_of_toInt_eq
  show r.acc.toInt = 0
  omega

/-- The pin levels of the four samples of a turn from the detent phase: A leads clockwise, B counter-clockwise. -/
def turnPins : Turn → List (Bool × Bool)
  | .cw => [(true, false), (true, true), (false, true), (false, false)]
  | .ccw => [(false, true), (true, true), (true, false), (false, false)]

/-- Three phases away from the detent and the return to it: four transitions, then one arrival. -/
theorem quadRun_cycle {c : Config} {k : Knob} {r : Rqd} {p q u : BitVec 2} (hr : r.phase = 0b00) (hp : p ≠ 0b00) (hq : q ≠ 0b00)
    (hu : u ≠ 0b00) (hqp : q ≠ p) (huq : u ≠ q) :
    quadRun c k [p, q, u, 0b00] r = arriveAtDetent c k (transition 0b00 (transition u (transition q (transition p r)))) := by
  simp only [quadRun, quad_eq_away (r := r) (hr.symm ▸ hp) hp, quad_eq_away (r := transition p r) hqp hq,
    quad_eq_away (r := transition q (transition p r)) huq hu, quad_eq_arrive (r := transition u (transition q (transition p r))) hu,
    List.nil_append, List.append_nil]

theorem transition_cycle_cw (pos : BitVec 8) (btn : Bool) :
    transition 0b00 (transition 0b01 (transition 0b11 (transition 0b10 ⟨0b00, 0, false, pos, btn⟩))) =
      ⟨0b00, 4, false, pos, btn⟩ := by
  simp [transition, succCw]

theorem transition_cycle_ccw (pos : BitVec 8) (btn : Bool) :
    transition 0b00 (transition 0b10 (transition 0b11 (transition 0b01 ⟨0b00, 0, false, pos, btn⟩))) =
      ⟨0b00, -4, false, pos, btn⟩ := by
  simp [transition, succCw]

/-- Without inversion the four samples of a turn count to 4 or -4 and click once, back at the detent. -/
theorem quadRun_turn {c : Config} {k : Knob} {n : Nat} {r : Rqd} (hinvert : c.quadInvert = false) (hok : r.ok n = true)
    (hphase : r.phase = 0b00) (hlost : r.lost = false) (t : Turn) :
    quadRun c k (phasesOf c (turnPins t)) r =
      ({ r with pos := clickPos (c.notch k) t r.pos }, [evword k.src (clickKind t) (clickPos (c.notch k) t r.pos)]) := by
  have hacc := acc_of_detent hok hphase hlost
  have hphases : phasesOf c (turnPins t) = (turnPins t).map fun p => BitVec.ofBool p.1 ++ BitVec.ofBool p.2 := by
    simp [phasesOf, phaseOf, hinvert]
  obtain ⟨phase, acc, lost, pos, btn⟩ := r
  subst hphase hlost hacc
  rw [hphases]
  cases t with
  | cw =>
    show quadRun c k [0b10, 0b11, 0b01, 0b00] _ = _
    rw [quadRun_cycle rfl (by decide) (by decide) (by decide) (by decide) (by decide), transition_cycle_cw]
    rfl
  | ccw =>
    show quadRun c k [0b01, 0b11, 0b10, 0b00] _ = _
    rw [quadRun_cycle rfl (by decide) (by decide) (by decide) (by decide) (by decide), transition_cycle_ccw]
    rfl

theorem execAll_turn {s : State} {k : Knob} {level : Bool} (hv : s.cfg.valid = true) (hok : (s.rqd k).ok (s.cfg.notch k) = true)
    (hinvert : s.cfg.quadInvert = false) (hphase : (s.rqd k).phase = 0b00) (hlost : (s.rqd k).lost = false)
    (hbtn : (level == s.cfg.btnActive k) = (s.rqd k).btn) (turn : Turn) :
    ∃ t, execAll (samplesAt k level (turnPins turn)) s = .next t ∧
      (t.rqd k).pos = clickPos (s.cfg.notch k) turn (s.rqd k).pos ∧
      t.ev k = s.ev k ++ [evword k.src (clickKind turn) (t.rqd k).pos] := by
  obtain ⟨t, ht, hrqd, hev⟩ := execAll_samplesAt hv hok hbtn (turnPins turn)
  rw [quadRun_turn hinvert hok hphase hlost] at hrqd hev
  exact ⟨t, ht, by rw [hrqd], by rw [hrqd, hev]⟩

/-- Settles O39: each of the two is the four samples of its turn, and the click's position wraps at 0 and N. -/
theorem pseudoTurnsClickOnce : Obligations.PseudoTurnsClickOnce := by
  intro s k btn hv hok hinvert hphase hlost hbtn
  obtain ⟨hcw, hccw⟩ := clickPos_toNat (valid_notch hv k) ((ok_iff _ _).1 hok).1
  obtain ⟨t, ht, hpos, hev⟩ := execAll_turn hv hok hinvert hphase hlost hbtn .cw
  obtain ⟨u, hu, hpos', hev'⟩ := execAll_turn hv hok hinvert hphase hlost hbtn .ccw
  exact ⟨⟨t, ht, hpos ▸ hcw, hev⟩, u, hu, hpos' ▸ hccw, hev'⟩

end Sys2Proof.Machine
end

section
/-! SUPPORT. The obligations of the rotary decoder (40_rotary_decoder.md): the quadrature part of a sample, one equation for each case of
R100; what a sample leaves of its knob and appends to its events; and what follows for the rules R101 to R114. -/

namespace Sys2Proof.Machine

/-! ## The quadrature part, case by case -/

section
variable {c : Config} {k : Knob} {p : BitVec 2} {r : Rqd} {n : Nat}

/-- An arrival at the detent with a click. -/
theorem quad_click (hp : r.phase ≠ 0b00) {t : Turn} (ht : detentClick (transition 0b00 r) = some t) :
    quadStep c k 0b00 r = ({ r with phase := 0b00, acc := 0, lost := false, pos := clickPos (c.notch k) t r.pos },
      [evword k.src (clickKind t) (clickPos (c.notch k) t r.pos)]) := by
  simp only [quad_eq_arrive hp, arriveAtDetent, ht, transition_pos, transition_btn, transition_phase]

/-- An arrival at the detent without a click. -/
theorem quad_noClick (hp : r.phase ≠ 0b00) (ht : detentClick (transition 0b00 r) = none) :
    quadStep c k 0b00 r = ({ r with phase := 0b00, acc := 0, lost := false }, []) := by
  simp only [quad_eq_arrive hp, arriveAtDetent, ht, transition_pos, transition_btn, transition_phase]

/-- R104: a click ends a full cycle. -/
theorem fullCycle_of_click (h : r.ok n = true) (hp : r.phase ≠ 0b00) {t : Turn} (ht : detentClick (transition 0b00 r) = some t) :
    r.lost = false ∧ (r.phase = 0b01 ∧ r.acc.toInt = 3 ∨ r.phase = 0b10 ∧ r.acc.toInt = -3) := by
  rw [detent_spec h hp] at ht
  split_ifs at ht with hcw hccw
  · exact ⟨hcw.1, .inl hcw.2⟩
  · exact ⟨hccw.1, .inr hccw.2⟩

theorem transition_bothLines (h : p ^^^ r.phase = 0b11) : transition p r = { r with phase := p, acc := 0, lost := true } := by
  rw [transition, if_pos h]

/-- R102, R112: both lines changed. -/
theorem quad_bothLines (h : p ^^^ r.phase = 0b11) :
    quadStep c k p r = ({ r with phase := p, acc := 0, lost := decide (p ≠ 0b00) }, []) := by
  have hp : p ≠ r.phase := fun hp => by rw [hp, BitVec.xor_self] at h; cases h
  by_cases h0 : p = 0b00
  · subst h0
    have hnone : detentClick (transition 0b00 r) = none := by rw [transition_bothLines h]; rfl
    exact quad_noClick (Ne.symm hp) hnone
  · rw [quad_eq_away hp h0, transition_bothLines h, decide_eq_true h0]

/-- R102: a lost cycle stays lost away from the detent. -/
theorem quad_lost_away (hok : r.ok n = true) (hlost : r.lost = true) (h0 : p ≠ 0b00) :
    quadStep c k p r = ({ r with phase := p }, []) := by
  obtain ⟨-, -, -, -, hacc⟩ := Rqd.bounds_of_ok hok
  by_cases hp : p = r.phase
  · rw [quad_eq_same hp, hp]
  · rw [quad_eq_away hp h0]
    by_cases hboth : p ^^^ r.phase = 0b11
    · rw [transition_bothLines hboth, ← hlost, ← hacc hlost]
    · rw [transition, if_neg hboth, if_pos hlost]

/-- R104, R113: the position moves only with a click. -/
theorem quad_pos_moves (hok : r.ok n = true) (hmove : (quadStep c k p r).1.pos ≠ r.pos) :
    p = 0b00 ∧ r.lost = false ∧ (r.phase = 0b01 ∧ r.acc.toInt = 3 ∨ r.phase = 0b10 ∧ r.acc.toInt = -3) := by
  by_cases hp : p = r.phase
  · rw [quad_eq_same hp] at hmove; exact absurd rfl hmove
  · by_cases h0 : p = 0b00
    · subst h0
      cases ht : detentClick (transition 0b00 r) with
      | none => rw [quad_noClick (Ne.symm hp) ht] at hmove; exact absurd rfl hmove
      | some t => exact ⟨rfl, fullCycle_of_click hok (Ne.symm hp) ht⟩
    · rw [quad_eq_away hp h0] at hmove; exact absurd (transition_pos p r) hmove

/-- R103: the count after a change of one line. -/
theorem transition_acc_toInt (hok : r.ok n = true) (h : p ^^^ r.phase ≠ 0b11) :
    (transition p r).acc.toInt = if r.lost then 0 else if p = succCw r.phase then r.acc.toInt + 1 else r.acc.toInt - 1 := by
  rw [transition_acc]
  exact acc_table p r.phase r.acc r.lost ((ok_iff n r).1 hok).2 h

/-- The quadrature part emits at most one word. -/
theorem quad_words_length (c : Config) (k : Knob) (p : BitVec 2) (r : Rqd) : (quadStep c k p r).2.length ≤ 1 := by
  obtain hq | ⟨t, q, hq⟩ := quad_words c k p r <;> simp [hq]

/-- R105: a word of the quadrature part is a rotation event that carries the position after it. -/
theorem quad_words_rotation (hok : r.ok (c.notch k) = true) : ∀ w ∈ (quadStep c k p r).2,
    w = evword k.src .rotatedClockwise (quadStep c k p r).1.pos ∨
      w = evword k.src .rotatedCounterClockwise (quadStep c k p r).1.pos := by
  intro w hw
  obtain hq | ⟨-, -, -, t, hq⟩ := quad_event (p := p) hok
  · rw [hq] at hw; cases hw
  · rw [hq, List.mem_singleton] at hw
    cases t with
    | cw => exact .inl hw
    | ccw => exact .inr hw

end

/-- R101: the phase as a number. -/
theorem phaseOf_toNat (c : Config) (a b : Bool) :
    (phaseOf c a b).toNat = (if a != c.quadInvert then 2 else 0) + (if b != c.quadInvert then 1 else 0) := by
  unfold phaseOf
  generalize c.quadInvert = inv
  revert a b inv
  decide

/-- R103: one line changed is a step of one of the two orders. -/
theorem succ_of_oneLine : ∀ p q : BitVec 2, p ≠ q → p ^^^ q ≠ 0b11 → p = succCw q ∨ p = succCcw q := by decide

/-! ## A sample, as its knob and its events see it -/

theorem setRqd_self (s : State) (k : Knob) : s.setRqd k (s.rqd k) = s := by cases k <;> rfl

theorem emitEv_nil (s : State) (k : Knob) : s.emitEv k [] = s := by cases k <;> simp [State.emitEv]

section
variable {s : State} {k : Knob} {a b c : Bool} (hv : s.cfg.valid = true) (hok : (s.rqd k).ok (s.cfg.notch k) = true)
include hv hok

/-- A sample leaves what its quadrature part leaves, with the pressed-state of the line, and appends the words of the quadrature part and
the button event of a changed pressed-state. -/
theorem exec_sample_knob : ∃ t, exec (.rqdSample k a b c) s = .next t ∧
    t.rqd k = { (quadStep s.cfg k (phaseOf s.cfg a b) (s.rqd k)).1 with btn := c == s.cfg.btnActive k } ∧
    t.ev k = s.ev k ++ (quadStep s.cfg k (phaseOf s.cfg a b) (s.rqd k)).2 ++
      (if (c == s.cfg.btnActive k) = (s.rqd k).btn then []
        else [evword k.src (buttonKind s.cfg.btnMode (c == s.cfg.btnActive k)) 0]) :=
  ⟨_, exec_sample_ok hv hok, by simp [sample_fst], by simp [sample_snd]⟩

/-- The same for a quadrature part that emits nothing. -/
theorem exec_sample_silent {q : Rqd} (hq : quadStep s.cfg k (phaseOf s.cfg a b) (s.rqd k) = (q, [])) :
    ∃ t, exec (.rqdSample k a b c) s = .next t ∧ t.rqd k = { q with btn := c == s.cfg.btnActive k } ∧
      t.ev k = s.ev k ++ (if (c == s.cfg.btnActive k) = (s.rqd k).btn then []
        else [evword k.src (buttonKind s.cfg.btnMode (c == s.cfg.btnActive k)) 0]) := by
  obtain ⟨t, ht, hrqd, hev⟩ := exec_sample_knob (a := a) (b := b) (c := c) hv hok
  rw [hq] at hrqd hev
  exact ⟨t, ht, hrqd, by rw [hev, List.append_nil]⟩

/-- R110: a sample with the recorded phase and pressed-state. -/
theorem exec_sample_unchanged (hphase : phaseOf s.cfg a b = (s.rqd k).phase) (hbtn : (c == s.cfg.btnActive k) = (s.rqd k).btn) :
    exec (.rqdSample k a b c) s = .next s := by
  rw [exec_sample_ok hv hok, sample_of_recorded_button hbtn, quad_eq_same hphase, setRqd_self, emitEv_nil]

end

/-! ## The obligations on one sample -/

/-- Settles O29: the quadrature part leaves the phase of the lines. -/
theorem phaseIsTheTwoLines : Obligations.PhaseIsTheTwoLines := by
  refine ⟨fun s k a b c hv hok => ?_, by decide, by decide⟩
  obtain ⟨t, ht, hrqd, -⟩ := exec_sample_knob (a := a) (b := b) (c := c) hv hok
  refine ⟨t, ht, ?_⟩
  rw [hrqd, quad_phase, phaseOf_toNat]

/-- Settles O30: neither a lost cycle nor a change of both lines lets the quadrature part emit or move the position. -/
theorem bothLinesChangedLosesTheCycle : Obligations.BothLinesChangedLosesTheCycle := by
  refine ⟨fun s k a b c hv hok hlost h0 => ?_, fun s k a b c hv hok hboth => ?_⟩
  · obtain ⟨-, -, -, -, hacc⟩ := Rqd.bounds_of_ok hok
    obtain ⟨t, ht, hrqd, hev⟩ := exec_sample_silent (c := c) hv hok (quad_lost_away hok hlost h0)
    exact ⟨t, ht, by rw [hrqd]; exact hlost, by rw [hrqd]; exact hacc hlost, by rw [hrqd], hev⟩
  · obtain ⟨t, ht, hrqd, hev⟩ := exec_sample_silent (c := c) hv hok (quad_bothLines hboth)
    exact ⟨t, ht, by rw [hrqd], by rw [hrqd], by rw [hrqd], hev⟩

/-- Settles O31: away from the detent the quadrature part is the transition alone. -/
theorem oneLineChangedCountsAQuarterStep : Obligations.OneLineChangedCountsAQuarterStep := by
  refine ⟨fun n r p hok hp hone => ⟨succ_of_oneLine _ _ hp hone, transition_acc_toInt hok hone⟩,
    fun s k a b c hv hok h0 hp hone => ⟨succ_of_oneLine _ _ hp hone, ?_⟩⟩
  obtain ⟨t, ht, hrqd, hev⟩ := exec_sample_silent (c := c) hv hok (quad_eq_away hp h0)
  refine ⟨t, ht, ?_, ?_, ?_, hev⟩
  · rw [hrqd]; exact (transition_lost _ _).trans (if_neg hone)
  · rw [hrqd]; exact transition_pos _ _
  · rw [hrqd]; exact transition_acc_toInt hok hone

/-- Settles O32: the three outcomes of an arrival, by the click it makes (`detent_spec`). -/
theorem fullCycleClicksOnce : Obligations.FullCycleClicksOnce := by
  intro s k a b c hv hok h0 hp
  obtain ⟨hcw, hccw⟩ := clickPos_toNat (valid_notch hv k) ((ok_iff _ _).1 hok).1
  obtain ⟨t, ht, hrqd, hev⟩ := exec_sample_knob (a := a) (b := b) (c := c) hv hok
  have hturn := detent_spec hok hp
  rw [h0] at hrqd hev
  split_ifs at hturn with hfullCw hfullCcw
  · rw [quad_click hp hturn] at hrqd hev
    exact ⟨t, _, ht, by rw [hrqd], by rw [hrqd], hev, by rw [if_pos hfullCw, hrqd]; exact ⟨hcw, rfl⟩⟩
  · rw [quad_click hp hturn] at hrqd hev
    exact ⟨t, _, ht, by rw [hrqd], by rw [hrqd], hev, by rw [if_neg hfullCw, if_pos hfullCcw, hrqd]; exact ⟨hccw, rfl⟩⟩
  · rw [quad_noClick hp hturn] at hrqd hev
    exact ⟨t, _, ht, by rw [hrqd], by rw [hrqd], hev, by rw [if_neg hfullCw, if_neg hfullCcw, hrqd]; exact ⟨rfl, rfl⟩⟩

/-- Settles O33: the quadrature part emits only the rotation event of a full cycle (`quad_event`), and the button part follows it. -/
theorem buttonChangesEmitOneEvent : Obligations.ButtonChangesEmitOneEvent := by
  intro s k a b c hv hok
  obtain ⟨t, ht, hrqd, hev⟩ := exec_sample_knob (a := a) (b := b) (c := c) hv hok
  refine ⟨t, (quadStep s.cfg k (phaseOf s.cfg a b) (s.rqd k)).2, ht, ?_, ?_, quad_words_length .., fun hrot => ?_, ?_⟩
  · rw [hrqd]; rfl
  · rw [hrqd]; exact quad_words_rotation hok
  · obtain hq | ⟨h0, hlost, hcycle, -⟩ := quad_event (p := phaseOf s.cfg a b) hok
    · exact absurd hq hrot
    · exact ⟨h0, hlost, hcycle⟩
  · rw [hev, hrqd]
    cases s.cfg.btnMode <;> cases c == s.cfg.btnActive k <;> rfl

/-- Settles O34: with the recorded phase the quadrature part is silent, with the recorded pressed-state the button part is. -/
theorem sampleWithoutChangeDoesNothing : Obligations.SampleWithoutChangeDoesNothing := by
  intro s k a b c hv hok
  refine ⟨exec_sample_unchanged hv hok, fun hphase => ?_, fun hbtn => ?_⟩
  · obtain ⟨t, ht, hrqd, hev⟩ := exec_sample_silent (c := c) hv hok (quad_eq_same hphase)
    exact ⟨t, ht, by rw [hrqd], hev⟩
  · obtain ⟨t, ht, hrqd, hev⟩ := exec_sample_knob (a := a) (b := b) (c := c) hv hok
    rw [if_pos hbtn, List.append_nil] at hev
    exact ⟨t, _, ht, by rw [hrqd]; exact hbtn, hev, quad_words_length .., by rw [hrqd]; exact quad_words_rotation hok⟩

/-! ## The first samples after reset (R113) -/

/-- The decoder after the first sample since reset, with phase p and the button pressed or not. -/
def firstSample (p : BitVec 2) (btn : Bool) : Rqd where
  phase := p
  acc := if p = 0b10 then 1 else if p = 0b01 then -1 else 0
  lost := decide (p = 0b11)
  pos := 0
  btn := btn

theorem transition_reset : ∀ p : BitVec 2, p ≠ 0b00 → transition p Rqd.reset = firstSample p false := by decide

theorem quad_reset (c : Config) (k : Knob) (p : BitVec 2) : quadStep c k p Rqd.reset = (firstSample p false, []) := by
  by_cases h0 : p = 0b00
  · subst h0; exact quad_eq_same rfl
  · rw [quad_eq_away h0 h0, transition_reset p h0]

theorem firstSample_ok (n : Nat) (p : BitVec 2) (btn : Bool) : (firstSample p btn).ok n = true := by
  have hcore : ∀ p btn, okCore p (firstSample p btn).acc (firstSample p btn).lost = true := by decide
  exact (ok_iff n _).2 ⟨Nat.zero_le n, hcore p btn⟩

theorem firstSample_acc_toInt : ∀ (p : BitVec 2) (btn : Bool),
    (firstSample p btn).acc.toInt = if p = 0b10 then 1 else if p = 0b01 then -1 else 0 := by decide

/-- One transition counts at most one quarter-step: too few for a click. -/
theorem firstSample_noClick : ∀ (p : BitVec 2) (btn : Bool), detentClick (transition 0b00 (firstSample p btn)) = none := by decide

/-- A return to the detent after one sample. -/
theorem quad_firstSample (c : Config) (k : Knob) (p : BitVec 2) (btn : Bool) :
    quadStep c k 0b00 (firstSample p btn) = ({ Rqd.reset with btn := btn }, []) := by
  by_cases h0 : p = 0b00
  · subst h0; exact quad_eq_same rfl
  · rw [quad_noClick h0 (firstSample_noClick p btn)]; rfl

/-- The button event of the first sample: a press, exactly where the button is at the pressed level. -/
theorem first_button_words (c : Config) (k : Knob) (level : Bool) :
    (if (level == c.btnActive k) = Rqd.reset.btn then [] else [evword k.src (buttonKind c.btnMode (level == c.btnActive k)) 0]) =
      if level = c.btnActive k then [evword k.src (if c.btnMode = .paired then .buttonDown else .button) 0] else [] := by
  by_cases h : level = c.btnActive k
  · rw [if_pos h, beq_iff_eq.2 h]
    cases c.btnMode <;> rfl
  · rw [if_neg h, beq_eq_false_iff_ne.2 h]; rfl

/-- Settles O36: both samples have a silent quadrature part. -/
theorem resetWithPinsOffTheDetent : Obligations.ResetWithPinsOffTheDetent := by
  intro s k a b c hv hreset
  have hok : (s.rqd k).ok (s.cfg.notch k) = true := hreset ▸ reset_ok _
  have hq : quadStep s.cfg k (phaseOf s.cfg a b) (s.rqd k) = (firstSample (phaseOf s.cfg a b) false, []) := by
    rw [hreset, quad_reset]
  obtain ⟨t, ht, hrqd, hev⟩ := exec_sample_silent (c := c) hv hok hq
  have hcfg : t.cfg = s.cfg := (exec_effect ht).cfg_eq
  replace hrqd : t.rqd k = firstSample (phaseOf s.cfg a b) (c == s.cfg.btnActive k) := hrqd
  refine ⟨t, ht, by rw [hrqd]; rfl, by rw [hrqd]; rfl, by rw [hrqd, firstSample_acc_toInt], ?_, fun h0 hc => ?_,
    fun a' b' c' h0 => ?_⟩
  · rw [hev, hreset, first_button_words]
  · have hsame := exec_sample_unchanged (c := c) hv hok (h0.trans (hreset ▸ rfl)) (by rw [hreset, beq_eq_false_iff_ne.2 hc]; rfl)
    rw [ht] at hsame
    exact Host.Outcome.next.inj hsame
  · have hq' : quadStep t.cfg k (phaseOf t.cfg a' b') (t.rqd k) = ({ Rqd.reset with btn := (t.rqd k).btn }, []) := by
      rw [hrqd, hcfg, h0, quad_firstSample]; rfl
    obtain ⟨u, hu, hrqd', hev'⟩ := exec_sample_silent (c := c') (hcfg ▸ hv) (hrqd ▸ firstSample_ok _ _ _) hq'
    exact ⟨u, hu, by rw [hrqd']; rfl, by rw [hrqd']; rfl, by rw [hrqd']; rfl, by rw [hev', hcfg]⟩

/-! ## What no sample does (R113, R114) -/

/-- Settles O37: the position after a sample is that of its quadrature part, which moves only with a click. -/
theorem positionMovesOnlyOnAFullCycle : Obligations.PositionMovesOnlyOnAFullCycle := by
  intro s t k a b c h hmove
  obtain ⟨-, hok, rfl⟩ := execRqdSample_next h
  rw [emitEv_rqd, setRqd_rqd, if_pos rfl, sample_fst] at hmove
  exact quad_pos_moves hok hmove

/-- Settles O38: the update of a sample writes one knob and its events, and each of its two parts emits at most one word. -/
theorem sampleTouchesOneKnobOnly : Obligations.SampleTouchesOneKnobOnly := by
  intro s t k a b c h
  obtain ⟨-, -, rfl⟩ := execRqdSample_next h
  refine ⟨by cases k <;> rfl, fun k' hk' => by simp [hk'], ⟨(sampleRqd s.cfg k a b c (s.rqd k)).2, by simp, ?_⟩, by simp, by simp,
    by simp⟩
  rw [sample_snd, List.length_append]
  refine Nat.add_le_add (b := 1) (d := 1) (quad_words_length ..) ?_
  split <;> simp

end Sys2Proof.Machine
end

section
/-! SUPPORT. The obligations of the LED encoder (41_led_encoder.md): the template encoding and its decoding, the zigzag remap, the frame
of LED.ENCODE and where its zero bytes stand, what each writing command leaves, and the serial rate, which nothing reads. -/

namespace Sys2Proof.Machine

/-! ## Templates, channels and pixels (R131 to R134, R143) -/

/-- Settles O14: the table by its rows, the nibble rule over the four groups. -/
theorem templatesAreTheTable : Obligations.TemplatesAreTheTable :=
  ⟨rfl, rfl, rfl, rfl, by decide⟩

/-- A channel is decoded group by group, and its four groups are the base-4 digits of its value. -/
theorem decCh_encCh (v : Byte) : decCh (encCh v) = some v.toNat := by
  simp only [decCh, encCh, untemplate_template, Option.some.injEq, BitVec.extractLsb'_toNat, Nat.shiftRight_eq_div_pow]
  omega

theorem encCh_injective {v w : Byte} (h : encCh v = encCh w) : v = w := by
  have hdec : some v.toNat = some w.toNat := by rw [← decCh_encCh, h, decCh_encCh]
  exact BitVec.eq_of_toNat_eq (Option.some.inj hdec)

/-- Settles O15: decoding is a left inverse of the encoding. -/
theorem channelEncodingIsInjective : Obligations.ChannelEncodingIsInjective :=
  ⟨decCh_encCh, fun _ _ => encCh_injective⟩

/-- The four channels of a pixel on the wire (R133). -/
theorem encPx_quarters (px : Word) : (encPx px).take 4 = encCh (greenOf px) ∧ ((encPx px).drop 4).take 4 = encCh (redOf px) ∧
    ((encPx px).drop 8).take 4 = encCh (blueOf px) ∧ (encPx px).drop 12 = encCh (whiteOf px) :=
  ⟨rfl, rfl, rfl, rfl⟩

theorem redOf_toNat (px : Word) : (redOf px).toNat = px.toNat / 2 ^ 24 := by
  have := px.isLt
  rw [redOf, BitVec.extractLsb'_toNat, Nat.shiftRight_eq_div_pow]
  omega

theorem greenOf_toNat (px : Word) : (greenOf px).toNat = px.toNat / 2 ^ 16 % 256 := by
  rw [greenOf, BitVec.extractLsb'_toNat, Nat.shiftRight_eq_div_pow]

theorem blueOf_toNat (px : Word) : (blueOf px).toNat = px.toNat / 2 ^ 8 % 256 := by
  rw [blueOf, BitVec.extractLsb'_toNat, Nat.shiftRight_eq_div_pow]

theorem whiteOf_toNat (px : Word) : (whiteOf px).toNat = px.toNat % 256 := by
  rw [whiteOf, BitVec.extractLsb'_toNat, Nat.shiftRight_zero]

/-- Settles O16: each quarter is the encoding of a channel, which decodes to that channel's bits. -/
theorem wireOrderIsGreenRedBlueWhite : Obligations.WireOrderIsGreenRedBlueWhite := by
  intro px
  obtain ⟨hgreen, hred, hblue, hwhite⟩ := encPx_quarters px
  refine ⟨encPx_length px, ?_, ?_, ?_, ?_⟩
  · rw [hgreen, decCh_encCh, greenOf_toNat]
  · rw [hred, decCh_encCh, redOf_toNat]
  · rw [hblue, decCh_encCh, blueOf_toNat]
  · rw [hwhite, decCh_encCh, whiteOf_toNat]

/-- The off pixel (R134). -/
theorem encPx_zero : encPx 0 = List.replicate 16 0x88 := rfl

/-! ## The zigzag remap (R136, R137) -/

/-- The row of the place y of column x of the strand, and the place of a row: the strand turns back in each odd column. -/
def snake (cols x y : Nat) : Nat :=
  if x % 2 = 0 then y else cols - 1 - y

theorem snake_lt {cols y : Nat} (hy : y < cols) (x : Nat) : snake cols x y < cols := by
  unfold snake
  split <;> omega

theorem snake_snake {cols y : Nat} (hy : y < cols) (x : Nat) : snake cols x (snake cols x y) = y := by
  unfold snake
  split <;> omega

/-- Row and column of an index. -/
theorem div_mod_mul_add {cols x : Nat} (hx : x < cols) (y : Nat) : (y * cols + x) / cols = y ∧ (y * cols + x) % cols = x :=
  ⟨Nat.div_eq_of_lt_le (by omega) (by rw [Nat.succ_mul]; omega), Nat.mul_add_mod_of_lt hx⟩

/-- The slot of the pixel in column x and row y. -/
theorem remap_mul_add {cols x y : Nat} (hx : x < cols) (hy : y < cols) : remap cols (y * cols + x) = x * cols + snake cols x y := by
  obtain ⟨hdiv, hmod⟩ := div_mod_mul_add hx y
  simp only [remap, hmod, hdiv, snake, Nat.succ_mul]
  split <;> omega

/-- The pixel of the place r in column x of the strand. -/
theorem unremap_mul_add {cols r : Nat} (hr : r < cols) (x : Nat) : unremap cols (x * cols + r) = snake cols x r * cols + x := by
  obtain ⟨hdiv, hmod⟩ := div_mod_mul_add hr x
  simp only [unremap, hmod, hdiv, snake]

/-- An index of a square panel is a row and a column. -/
theorem exists_row_col {cols i : Nat} (h : i < cols * cols) : ∃ y x, y < cols ∧ x < cols ∧ i = y * cols + x :=
  have hcols : 0 < cols := Nat.pos_of_mul_pos_left (Nat.zero_lt_of_lt h)
  ⟨i / cols, i % cols, Nat.div_lt_of_lt_mul h, Nat.mod_lt _ hcols, (Nat.div_add_mod' i cols).symm⟩

theorem row_col_lt {cols y x : Nat} (hy : y < cols) (hx : x < cols) : y * cols + x < cols * cols := by
  rw [Nat.mul_comm y]
  exact Nat.mul_add_lt_mul_of_lt_of_lt hy hx

theorem remap_lt {cols i : Nat} (h : i < cols * cols) : remap cols i < cols * cols := by
  obtain ⟨y, x, hy, hx, rfl⟩ := exists_row_col h
  rw [remap_mul_add hx hy]
  exact row_col_lt hx (snake_lt hy x)

theorem unremap_lt {cols o : Nat} (h : o < cols * cols) : unremap cols o < cols * cols := by
  obtain ⟨x, r, hx, hr, rfl⟩ := exists_row_col h
  rw [unremap_mul_add hr]
  exact row_col_lt (snake_lt hr x) hx

theorem unremap_remap {cols i : Nat} (h : i < cols * cols) : unremap cols (remap cols i) = i := by
  obtain ⟨y, x, hy, hx, rfl⟩ := exists_row_col h
  rw [remap_mul_add hx hy, unremap_mul_add (snake_lt hy x), snake_snake hy]

theorem remap_unremap {cols o : Nat} (h : o < cols * cols) : remap cols (unremap cols o) = o := by
  obtain ⟨x, r, hx, hr, rfl⟩ := exists_row_col h
  rw [unremap_mul_add hr, remap_mul_add hx (snake_lt hr x), snake_snake hr]

/-- Settles O17: turning a column back is its own inverse. -/
theorem remapIsABijection : Obligations.RemapIsABijection :=
  ⟨fun _ => ⟨fun _ h => ⟨remap_lt h, unremap_remap h⟩, fun _ h => ⟨unremap_lt h, remap_unremap h⟩⟩, by decide⟩

/-! ## The three commands (R130, R140 to R142, R146) -/

/-- Settles O9: one written index by the law of PIX, and a set RSV field makes the word illegal. -/
theorem pixWriteStoresOneWord : Obligations.PixWriteStoresOneWord := by
  refine ⟨Laws.decode_pix, fun s hs hwf => ⟨fun idx v hidx => ?_, fun idx v hidx => exec_pixWrite_bad hs hidx v, ?_⟩⟩
  · exact ⟨_, exec_pixWrite_ok hs hidx v, readPix_writePix hwf idx.toNat (v := v), rfl⟩
  · intro cw arg _ hrsv
    rw [Laws.bv_ne_zero, Laws.rsvOf_toNat] at hrsv
    exact Laws.exec_illegal hs ((illegalWord_iff cw).2 (.inr (.inl hrsv))) arg

/-- The byte u of the slot of the logical index i (R140): the slots written in logical order are those laid out in physical order. -/
theorem frameBytes_remap {s : State} (hv : s.cfg.valid = true) (n : Nat) {i u : Nat} (hi : i < s.cfg.nLeds) (hu : u < 16) :
    (frameBytes s n)[s.cfg.resetBytes + 16 * remap s.cfg.cols i + u]? = (encPx (suppliedPixel s n i))[u]? := by
  have hsquare := valid_square hv
  rw [hsquare] at hi
  rw [frameBytes_slot s n (hsquare ▸ remap_lt hi) hu, unremap_remap hi]

/-- What LED.ENCODE leaves in FB. -/
theorem readFb_encoded (s : State) (n j : Nat) :
    ((s.setFrame (frameBytes s n)).setResponse 0 0).readFb j = (frameBytes s n)[j]? :=
  readFb_setFrame s _ j

/-- Settles O10: the frame of R139, read through the remap. -/
theorem ledEncodeWritesTheFrame : Obligations.LedEncodeWritesTheFrame := by
  refine ⟨decodeCmd_ledEncode, fun s hs => ⟨fun count hcount => ?_, fun count => exec_ledEncode_bad hs, ?_⟩⟩
  · refine ⟨_, exec_ledEncode_ok hs hcount, rfl, fun j hj => ?_, fun i hi u hu => ?_, fun j hj hj' => ?_, fun j hj => ?_⟩
    · rw [readFb_encoded, frameBytes_lead s _ hj]
    · rw [readFb_encoded, frameBytes_remap hs.1 _ hi hu, suppliedPixel]
    · rw [readFb_encoded, frameBytes_trail s _ hj hj']
    · rw [readFb_encoded, isSome_getElem?, frameBytes_length]
      exact hj
  · intro cw arg hopc hcw
    exact Laws.exec_illegal hs (Laws.opc_illegal 2 2 rfl (by decide) hopc hcw) arg

/-- Settles O11: the frame by slots, and FB holds no byte beyond it. -/
theorem frameIsLaidOutBySlot : Obligations.FrameIsLaidOutBySlot := by
  refine ⟨encPx_quarters, fun s count hs hcount =>
    ⟨rfl, _, exec_ledEncode_ok hs hcount, fun j hj => ?_, fun o ho u hu => ?_, fun j hj hj' => ?_, fun j hj => ?_⟩⟩
  · rw [readFb_encoded, frameBytes_lead s _ hj]
  · rw [readFb_encoded, frameBytes_slot s _ ho hu, suppliedPixel]
  · rw [readFb_encoded, frameBytes_trail s _ hj hj']
  · rw [readFb_encoded, List.getElem?_eq_none (by rw [frameBytes_length]; exact hj)]

/-- With no pixel supplied every slot holds the off pixel. -/
theorem frameBytes_zero (s : State) : frameBytes s 0 =
    List.replicate s.cfg.resetBytes 0x00 ++ List.replicate (16 * s.cfg.nLeds) 0x88 ++ List.replicate s.cfg.resetBytes 0x00 := by
  have hoff (i : Nat) : suppliedPixel s 0 i = 0 := if_neg (Nat.not_lt_zero i)
  simp only [frameBytes, hoff, encPx_zero, List.flatMap, List.map_const', List.length_range, List.flatten_replicate_replicate,
    Nat.mul_comm]

/-- Settles O12: the whole frame is what `frameBytes_zero` says. -/
theorem countZeroEncodesEverySlotOff : Obligations.CountZeroEncodesEverySlotOff := by
  intro s hs
  refine ⟨_, exec_ledEncode_ok hs (Nat.zero_le _), ?_⟩
  rw [setResponse_frame, frame_setFrame s _ (frameBytes_length s _)]
  exact congrArg some (frameBytes_zero s)

/-- Settles O13: with the invariant a valid FB is there as a whole. -/
theorem ledTxSendsTheFrame : Obligations.LedTxSendsTheFrame := by
  refine ⟨decodeCmd_ledTx, fun s hinv hidle hvalid => ?_, fun s hs => ⟨exec_ledTx_none hs, fun cw arg hopc hcw => ?_⟩⟩
  · obtain ⟨bs, hb⟩ := inv_frame hinv hvalid
    obtain ⟨hlen, hread⟩ := frame_spec hb
    exact ⟨bs, hlen, hread, exec_ledTx_ok ⟨hinv.cfg, hidle⟩ hvalid hb⟩
  · exact Laws.exec_illegal hs (Laws.opc_illegal 3 3 rfl (by decide) hopc hcw) arg

/-! ## The zero bytes of a frame (R134) -/

/-- A byte that is as the rules have it at the index k of a frame is zero exactly when k is in a gap. -/
theorem getElem?_eq_zero_iff {c : Config} {bs : List Byte} {j k : Nat} (hj : j < bs.length)
    (hok : ∀ b, bs[j]? = some b → frameByteOk c k b = true) :
    bs[j]? = some 0x00 ↔ (k < c.resetBytes ∨ c.resetBytes + 16 * c.nLeds ≤ k) := by
  have hget := List.getElem?_eq_getElem hj
  rw [hget, Option.some.injEq]
  exact frameByteOk_zero (hok _ hget)

/-- The byte j of TX is as the rules have it at its index in its frame. -/
theorem inv_tx_ok {s : State} (h : s.Inv) {j : Nat} {b : Byte} (hj : s.tx[j]? = some b) :
    frameByteOk s.cfg (j % s.cfg.frameLen) b = true :=
  h.txBytes (b, j) (List.mem_zipIdx_iff_getElem?.2 hj)

/-- LED.TX after an LED.ENCODE sends the frame that was encoded. -/
theorem exec_ledTx_encoded {s : State} (hs : s.Ready) (n : Nat) :
    exec .ledTx ((s.setFrame (frameBytes s n)).setResponse 0 0) =
      .next ((((s.setFrame (frameBytes s n)).setResponse 0 0).emitTx (frameBytes s n)).setResponse 0 0) :=
  exec_ledTx_ok (s := (s.setFrame _).setResponse 0 0) hs rfl (frame_setFrame s _ (frameBytes_length s n))

/-- Settles O18: every byte of an encoded frame, of a valid FB and of TX is as the rules have it at its index. -/
theorem zeroBytesOnlyInTheGaps : Obligations.ZeroBytesOnlyInTheGaps := by
  refine ⟨encPx_zero, fun s count hs hcount => ?_, fun s hinv hidle hvalid => ?_, fun s hinv => ⟨hinv.txWhole, fun j hj => ?_⟩⟩
  · exact ⟨_, _, _, exec_ledEncode_ok hs hcount, exec_ledTx_encoded hs _, rfl, frameBytes_length s _,
      fun j hj => getElem?_eq_zero_iff (by rwa [frameBytes_length]) fun _ => frameBytes_ok⟩
  · obtain ⟨bs, hb⟩ := inv_frame hinv hvalid
    have hlen := (frame_spec hb).1
    exact ⟨bs, exec_ledTx_ok ⟨hinv.cfg, hidle⟩ hvalid hb, hlen,
      fun j hj => getElem?_eq_zero_iff (hlen ▸ hj) fun _ => inv_frame_ok hinv hb⟩
  · exact getElem?_eq_zero_iff hj fun _ => inv_tx_ok hinv

/-! ## What each writing command leaves -/

/-- Settles O41: each next state is written out by the command's own law. -/
theorem writingCommandsChangeTheirOwnStateOnly : Obligations.WritingCommandsChangeTheirOwnStateOnly := by
  refine ⟨fun s t idx v hwf h => ?_, fun s t count h => ?_, fun s t h => ?_, fun s t seed h => ?_, fun s t h => ?_⟩
  · obtain ⟨-, ⟨-, rfl⟩ | ⟨-, rfl⟩⟩ := execPixWrite_next h
    · exact ⟨rfl, fun _ _ => rfl⟩
    · exact ⟨rfl, fun j hj => by rw [setResponse_readPix, readPix_writePix hwf, if_neg hj]⟩
  · obtain ⟨-, ⟨-, rfl⟩ | ⟨-, rfl⟩⟩ := execLedEncode_next h <;> rfl
  · obtain ⟨-, ⟨-, rfl⟩ | ⟨-, bs, -, rfl⟩⟩ := execLedTx_next h <;> rfl
  · obtain ⟨-, ⟨-, rfl⟩ | ⟨-, rfl⟩⟩ := execGolReset_next h <;> rfl
  · obtain ⟨-, ⟨-, rfl⟩ | ⟨hv, g, -, rfl⟩⟩ := execGolStep_next h
    · rfl
    · -- GRID_VALID is written, but it is 1 already
      ext1 <;> simp [hv]

/-! ## The serial rate (R148, 70_reset_and_hazards.md R247) -/

/-- The outcome, its next state in the block built for another serial rate. -/
def outcomeWithSerialRate (r : Option Nat) : Outcome → Outcome
  | .next t => .next (t.withSerialRate r)
  | .fault f => .fault f
  | .refused f => .refused f

@[simp] theorem withSerialRate_cellNumber (s : State) (r : Option Nat) (x y : Int) :
    cellNumber (s.withSerialRate r).cfg x y = cellNumber s.cfg x y := rfl
@[simp] theorem withSerialRate_takesReset (s : State) (r : Option Nat) : takesReset (s.withSerialRate r) = takesReset s := rfl

section
variable {s : State} (r : Option Nat)

theorem guardConfig_withSerialRate {body : State → Outcome}
    (h : body (s.withSerialRate r) = outcomeWithSerialRate r (body s)) :
    guardConfig (s.withSerialRate r) body = outcomeWithSerialRate r (guardConfig s body) := by
  cases hv : s.cfg.valid with
  | true => rw [guardConfig_of_valid hv, guardConfig_of_valid (s := s.withSerialRate r) hv, h]
  | false => rw [guardConfig_of_invalid hv, guardConfig_of_invalid (s := s.withSerialRate r) hv]; rfl

theorem command_withSerialRate {body : State → Outcome}
    (h : body (s.withSerialRate r) = outcomeWithSerialRate r (body s)) :
    command (s.withSerialRate r) body = outcomeWithSerialRate r (command s body) := by
  refine guardConfig_withSerialRate r ?_
  simp only [withSerialRate_cmdState]
  cases s.cmdState with
  | idle => exact h
  | hung => rfl

theorem ite_withSerialRate {p : Prop} [Decidable p] {a a' b b' : Outcome} (ha : a' = outcomeWithSerialRate r a)
    (hb : b' = outcomeWithSerialRate r b) : (if p then a' else b') = outcomeWithSerialRate r (if p then a else b) := by
  rw [ha, hb, apply_ite (outcomeWithSerialRate r)]

theorem withGrid_withSerialRate {body body' : List Bool → Outcome} (h : ∀ g, body' g = outcomeWithSerialRate r (body g)) :
    withGrid (s.withSerialRate r) body' = outcomeWithSerialRate r (withGrid s body) := by
  refine ite_withSerialRate r ?_ rfl
  rw [withSerialRate_cells]
  cases s.cells with
  | none => rfl
  | some g => exact h g

/-- No operation reads the rate or writes it: its guards and its branches are decided as without the rate. -/
theorem exec_withSerialRate (s : State) (i : Instr) : exec i (s.withSerialRate r) = outcomeWithSerialRate r (exec i s) := by
  cases i with
  | nop =>
    simp only [exec, execNop]
    exact command_withSerialRate r rfl
  | reserved cw =>
    simp only [exec, execReserved]
    exact command_withSerialRate r rfl
  | pixWrite idx v =>
    simp only [exec, execPixWrite]
    exact command_withSerialRate r (ite_withSerialRate r rfl rfl)
  | ledEncode n =>
    simp only [exec, execLedEncode]
    exact command_withSerialRate r (ite_withSerialRate r rfl rfl)
  | ledTx =>
    simp only [exec, execLedTx]
    refine command_withSerialRate r (ite_withSerialRate r ?_ rfl)
    rw [withSerialRate_frame]
    cases s.frame <;> rfl
  | golReset seed =>
    simp only [exec, execGolReset]
    exact command_withSerialRate r (ite_withSerialRate r rfl rfl)
  | golStep =>
    simp only [exec, execGolStep]
    exact command_withSerialRate r (withGrid_withSerialRate r fun _ => rfl)
  | golRead x y =>
    simp only [exec, execGolRead]
    refine command_withSerialRate r (ite_withSerialRate r ?_ rfl)
    rw [withSerialRate_readCell, withSerialRate_cellNumber]
    cases s.readCell _ <;> rfl
  | golStatus =>
    simp only [exec, execGolStatus]
    exact command_withSerialRate r (ite_withSerialRate r rfl rfl)
  | rqdSample k a b c =>
    simp only [exec, execRqdSample]
    refine guardConfig_withSerialRate r ?_
    cases k <;> exact ite_withSerialRate r rfl rfl

theorem step_withSerialRate (s : State) : step (s.withSerialRate r) = outcomeWithSerialRate r (step s) := by
  have hfetch := withSerialRate_fetch s r
  cases hf : fetch s with
  | none =>
    rw [step_of_fetch_none hf, step_of_fetch_none (hfetch.trans hf)]
    exact guardConfig_withSerialRate r rfl
  | some taken =>
    obtain ⟨i, rest⟩ := taken
    cases i with
    | pin p =>
      rw [step_of_fetch_instr hf rfl, step_of_fetch_instr (hfetch.trans hf) rfl, withSerialRate_setInputs, exec_withSerialRate]
    | cmd cw arg =>
      rw [step_of_fetch_instr hf rfl, step_of_fetch_instr (hfetch.trans hf) rfl, withSerialRate_setInputs, exec_withSerialRate]
    | reset =>
      rw [step_of_fetch_reset hf, step_of_fetch_reset (hfetch.trans hf), withSerialRate_setInputs]
      exact guardConfig_withSerialRate r rfl

theorem stepResponse_withSerialRate (s : State) : stepResponse (s.withSerialRate r) = stepResponse s := by
  rw [stepResponse, stepResponse, withSerialRate_fetch, step_withSerialRate]
  cases fetch s with
  | none => rfl
  | some taken =>
    obtain ⟨i, rest⟩ := taken
    cases i with
    | pin p => rfl
    | cmd cw arg => cases step s <;> rfl
    | reset => rfl

theorem nextResponses_withSerialRate (s : State) (rs : List (BitVec 4 × Word)) :
    nextResponses (s.withSerialRate r) rs = nextResponses s rs := by
  rw [nextResponses, nextResponses, withSerialRate_takesReset, stepResponse_withSerialRate]

theorem observeFrom_withSerialRate (n : Nat) (rs : List (BitVec 4 × Word)) (s : State) :
    observeFrom n rs (s.withSerialRate r) = observeFrom n rs s := by
  induction n generalizing rs s with
  | zero => rfl
  | succ n ih =>
    simp only [observeFrom, step_withSerialRate, nextResponses_withSerialRate]
    cases step s with
    | next t => exact ih _ t
    | fault f => rfl
    | refused f => rfl

end

/-- Settles O59: a step and an operation commute with the choice of the rate, and a run by induction on its steps. -/
theorem serialRateDecidesNothing : Obligations.SerialRateDecidesNothing := by
  refine ⟨fun s r => ?_, fun n c l r => observeFrom_withSerialRate r n [] ((State.resetWith c).setInputs l)⟩
  have hstep := step_withSerialRate r s
  refine ⟨fun t h => ?_, fun f h => ?_, fun f h => ?_, fun i => ?_⟩
  · rw [hstep, h]; rfl
  · rw [hstep, h]; rfl
  · rw [hstep, h]; rfl
  · have hexec := exec_withSerialRate r s i
    refine ⟨fun t h => ?_, fun f h => ?_, fun f h => ?_⟩
    · rw [hexec, h]; rfl
    · rw [hexec, h]; rfl
    · rw [hexec, h]; rfl

end Sys2Proof.Machine
end

section
/-! SUPPORT. The obligations of the Game of Life (42_game_of_life.md): the working value of GOL.RESET from cell to cell, what GOL.STEP leaves
in each cell, the cell GOL.READ answers, the status word, and the neighbour count on small grids and in the corner. -/

namespace Sys2Proof.Machine

/-! ## The cells of a grid -/

/-- Every cell is in a row and a column of the grid. -/
theorem exists_row_column {c : Config} {j : Nat} (hj : j < c.cells) : ∃ y < c.golH, ∃ x < c.golW, j = y * c.golW + x := by
  rw [Config.cells] at hj
  have hW : 0 < c.golW := Nat.pos_of_mul_pos_right (Nat.zero_lt_of_lt hj)
  exact ⟨j / c.golW, Nat.div_lt_of_lt_mul hj, j % c.golW, Nat.mod_lt j hW, (Nat.div_add_mod' j c.golW).symm⟩

theorem forall_cell_iff {c : Config} {p : Nat → Prop} :
    (∀ y < c.golH, ∀ x < c.golW, p (y * c.golW + x)) ↔ ∀ j < c.cells, p j := by
  refine ⟨fun h j hj => ?_, fun h y hy x hx => h _ (cell_lt hx hy)⟩
  obtain ⟨y, hy, x, hx, rfl⟩ := exists_row_column hj
  exact h y hy x hx

theorem exists_cell_iff {c : Config} {p : Nat → Prop} :
    (∃ y < c.golH, ∃ x < c.golW, p (y * c.golW + x)) ↔ ∃ j < c.cells, p j := by
  refine ⟨fun ⟨y, hy, x, hx, h⟩ => ⟨_, cell_lt hx hy, h⟩, fun ⟨j, hj, h⟩ => ?_⟩
  obtain ⟨y, hy, x, hx, rfl⟩ := exists_row_column hj
  exact ⟨y, hy, x, hx, h⟩

/-- A cell of a grid that is there has a value. -/
theorem readCell_of_cells {s : State} {g : List Bool} (hg : s.cells = some g) {j : Nat} (hj : j < s.cfg.cells) :
    ∃ b, s.readCell j = some b := by
  obtain ⟨hlen, hread⟩ := cells_spec hg
  exact ⟨_, (hread j hj).trans (List.getElem?_eq_getElem (hlen.symm ▸ hj))⟩

/-- Two grids differ exactly when some cell reads differently. -/
theorem grids_ne_iff {s t : State} {g g' : List Bool} (hg : s.cells = some g) (hg' : t.cells = some g') (hcfg : t.cfg = s.cfg) :
    g' ≠ g ↔ ∃ j < s.cfg.cells, t.readCell j ≠ s.readCell j := by
  obtain ⟨hlen, hread⟩ := cells_spec hg
  obtain ⟨hlen', hread'⟩ := cells_spec hg'
  rw [hcfg] at hlen' hread'
  rw [ne_eq, ← not_forall_not, not_iff_not, List.ext_getElem?_iff]
  refine ⟨fun h j ⟨hj, hne⟩ => hne ?_, fun h j => ?_⟩
  · rw [hread j hj, hread' j hj, h]
  · obtain hj | hj := Nat.lt_or_ge j s.cfg.cells
    · rw [← hread j hj, ← hread' j hj]
      exact not_not.1 fun hne => h j ⟨hj, hne⟩
    · rw [List.getElem?_eq_none (hlen.trans_le hj), List.getElem?_eq_none (hlen'.trans_le hj)]

/-- ALL_DEAD of a grid that is there (10_state.md R34). -/
theorem allDead_iff {s : State} {g : List Bool} (hv : s.gridValid = true) (hg : s.cells = some g) :
    s.allDead = true ↔ ∀ j < s.cfg.cells, s.readCell j = some false := by
  obtain ⟨hlen, hread⟩ := cells_spec hg
  have hdead : s.allDead = true ↔ ∀ b ∈ g, b = false := by
    simp [State.allDead, hv, hg, noneAlive, population, List.count_eq_zero]
  rw [hdead, List.forall_mem_iff_getElem, ← hlen]
  refine forall₂_congr fun j hj => ?_
  rw [hread j (hlen ▸ hj), List.getElem?_eq_getElem hj, Option.some.injEq]

/-! ## The working value of GOL.RESET (R161, R163, R165) -/

theorem nextWorking_eq (v : Word) :
    nextWorking v = if (v >>> 1).toNat < 128 then (v >>> 1) * 13 else v >>> 1 := by
  simp only [nextWorking, lt128, times13]

/-- From 256 on the working value is halved. -/
theorem nextWorking_toNat_of_ge {v : Word} (h : 256 ≤ v.toNat) : (nextWorking v).toNat = v.toNat / 2 := by
  have hshift := shift1_toNat v
  rw [nextWorking_eq, if_neg (by omega), hshift]

theorem iterate_nextWorking_ge {v : Word} (h : 128 ≤ v.toNat) (c : Nat) : 128 ≤ (nextWorking^[c] v).toNat := by
  induction c with
  | zero => exact h
  | succ c ih => rw [Function.iterate_succ_apply']; exact nextWorking_ge ih

/-- Any power of 13 times 0 is 0, so the loop of R161 does not end. -/
theorem warmUp_zero (n : Nat) : warmUp n 0 = 0 := by
  induction n with
  | zero => rfl
  | succ n ih => exact ih

/-- The cell j of the grid that GOL.RESET leaves. -/
theorem readCell_seeded (s : State) (seed : Word) {j : Nat} (hj : j < s.cfg.cells) :
    ((s.setGrid (seededGrid s.cfg seed) false).setResponse 0 0).readCell j =
      some ((nextWorking^[j] (warmUp warmUpRounds seed)).getLsbD 0) := by
  rw [setResponse_readCell, readCell_setGrid]
  exact seedCells_get _ hj

/-- Settles O21: the working value of the cell c is the c-th iterate of `nextWorking` on the warmed-up seed. -/
theorem golResetSeedsTheGrid : Obligations.GolResetSeedsTheGrid := by
  refine ⟨decodeCmd_golReset, fun s hs => ⟨fun seed h0 => ?_, exec_golReset_zero hs, fun cw arg hopc hcw => ?_⟩⟩
  · obtain ⟨n, hstart, hge, hfirst⟩ := warmUp_spec h0
    refine ⟨_, n, fun c => nextWorking^[c] (warmUp warmUpRounds seed), exec_golReset_ok hs h0, rfl, hstart, hge, hfirst,
      fun c => ?_, fun y hy x hx => readCell_seeded s seed (cell_lt hx hy)⟩
    exact (Function.iterate_succ_apply' nextWorking c _).trans (nextWorking_eq _)
  · exact Laws.exec_illegal hs (Laws.opc_illegal 4 4 rfl (by decide) hopc hcw) arg

/-- A sample does not see that the port hangs. -/
theorem exec_sample_hung {s t : State} (hs : s.Ready) {k : Knob} {a b c : Bool} (h : exec (.rqdSample k a b c) s = .next t) :
    exec (.rqdSample k a b c) s.setHung = .next t.setHung := by
  obtain ⟨v, hreset, hsample⟩ := sample_command_commute rfl h (exec_golReset_zero hs)
  rw [exec_golReset_zero (ready_of_exec_command rfl hreset)] at hreset
  obtain rfl := Host.Outcome.next.inj hreset
  exact hsample

/-- Settles O22: a HUNG port faults on every command, takes a reset, and commutes with the samples. -/
theorem seedZeroHangsThePort : Obligations.SeedZeroHangsThePort := by
  refine ⟨warmUp_zero, fun s hs => ⟨exec_golReset_zero hs, fun i t hi h => ?_, ?_, fun k a b c t => exec_sample_hung hs⟩⟩
  · have hfault : exec i s.setHung = .fault .commandPortHung := exec_hung (s := s.setHung) hs.1 rfl hi
    exact nomatch hfault.symm.trans h
  · rw [step_of_fetch_reset (fetch_reset rfl)]
    exact resetEvent_of_valid hs.1

/-- The seed 2^31 of R165 (e) is shifted from cell to cell, with no multiplication, down to 2^7. -/
theorem iterate_nextWorking_topBit {c : Nat} (hc : c ≤ 24) :
    (nextWorking^[c] (warmUp warmUpRounds 0x80000000)).toNat = 2 ^ (31 - c) := by
  induction c with
  | zero => rfl
  | succ c ih =>
    have ih := ih (by omega)
    have hge : 2 ^ 8 ≤ 2 ^ (31 - c) := Nat.pow_le_pow_right (by decide) (by omega)
    rw [Function.iterate_succ_apply', nextWorking_toNat_of_ge (by rw [ih]; exact hge), ih,
      show 31 - c = 31 - (c + 1) + 1 by omega, Nat.pow_succ, Nat.mul_div_cancel _ (by decide)]

/-- Bit 0 of the first 25 values of the seed 2^31 is 0. -/
theorem topBit_cell_dead {c : Nat} (hc : c ≤ 24) :
    (nextWorking^[c] (warmUp warmUpRounds 0x80000000)).getLsbD 0 = false := by
  rw [← BitVec.testBit_toNat, iterate_nextWorking_topBit hc]
  exact Nat.testBit_two_pow_of_ne (by omega)

/-- The grid that a seed leaves depends on the seed, W and H alone (R165 (d)). -/
theorem golReset_grid_congr {s s' t t' : State} {seed : Word} (hW : s.cfg.golW = s'.cfg.golW) (hH : s.cfg.golH = s'.cfg.golH)
    (h0 : seed ≠ 0) (h : exec (.golReset seed) s = .next t) (h' : exec (.golReset seed) s' = .next t') : t.grid = t'.grid := by
  obtain ⟨-, ⟨hz, -⟩ | ⟨-, rfl⟩⟩ := execGolReset_next h
  · exact absurd hz h0
  obtain ⟨-, ⟨hz, -⟩ | ⟨-, rfl⟩⟩ := execGolReset_next h'
  · exact absurd hz h0
  simp [seededGrid, Config.cells, hW, hH]

/-- The seed 2^31 leaves a grid of at most 25 cells all dead (R165 (e)). -/
theorem golReset_topBit_dead {s : State} (hs : s.Ready) (hcells : s.cfg.cells ≤ 25) :
    ∃ t, exec (.golReset 0x80000000) s = .next t ∧ (∀ j < s.cfg.cells, t.readCell j = some false) ∧ t.allDead = true := by
  have hdead : ∀ j < s.cfg.cells,
      ((s.setGrid (seededGrid s.cfg 0x80000000) false).setResponse 0 0).readCell j = some false := by
    intro j hj
    rw [readCell_seeded s _ hj, topBit_cell_dead (by omega)]
  have hgrid := cells_setGrid s _ false (seededGrid_length s.cfg 0x80000000)
  exact ⟨_, exec_golReset_ok hs (by decide), hdead, (allDead_iff rfl hgrid).2 hdead⟩

/-- Settles O23: `nextWorking` keeps the bound 128, and the seed 2^31 leaves bit 0 clear in the first nine cells. -/
theorem workingValueStaysAbove128 : Obligations.WorkingValueStaysAbove128 := by
  refine ⟨fun seed c h0 => ?_, fun v h64 h128 => ?_, fun v => times13_toNat, fun _ _ _ _ _ => golReset_grid_congr,
    fun c hc => iterate_nextWorking_topBit (by omega), fun s hs hW hH => ?_⟩
  · obtain ⟨-, -, hstart, -⟩ := warmUp_spec h0
    have hge := iterate_nextWorking_ge hstart c
    refine ⟨hge, ?_⟩
    rw [shift1_toNat]
    omega
  · rw [times13_toNat h128]
    omega
  · have hcells : s.cfg.cells = 9 := by rw [Config.cells, hW, hH]
    have hdead := golReset_topBit_dead hs (by omega)
    rwa [hcells] at hdead

/-! ## One generation (R166 to R169, R171) -/

/-- The number of live cells at the 8 positions around (x, y) of GRID (R167). -/
def State.liveAround (s : State) (x y : Int) : Nat :=
  lifeOffsets.countP fun d => s.liveAt (x + d.1) (y + d.2)

theorem lifeRule_eq (old : Bool) (n : Nat) : lifeRule old n = if old then decide (n = 2 ∨ n = 3) else decide (n = 3) := by
  cases old <;> simp [lifeRule, beq_eq_decide]

/-- The life rule over GRID as the state reads it. -/
theorem newCell_liveAt {s : State} (hv : s.cfg.valid = true) {g : List Bool} (hg : s.cells = some g) (x y : Int) :
    newCell s.cfg g x y = lifeRule (s.liveAt x y) (s.liveAround x y) := by
  rw [newCell, cellAt_liveAt hv hg, neighbours_liveAt hv hg, State.liveAround]

/-- What GOL.STEP leaves of a grid that is there. -/
theorem exec_golStep_generation {s : State} (h : s.Inv) (hidle : s.cmdState = .idle) (hv : s.gridValid = true) :
    ∃ t, exec .golStep s = .next t ∧
      t = { s with grid := t.grid, changed := t.changed, err := 0, result := if t.changed then 1 else 0 } ∧
      (∀ y < s.cfg.golH, ∀ x < s.cfg.golW,
        t.readCell (y * s.cfg.golW + x) = some (lifeRule (s.liveAt x y) (s.liveAround x y))) ∧
      (t.changed = true ↔ ∃ j < s.cfg.cells, t.readCell j ≠ s.readCell j) := by
  obtain ⟨g, hg⟩ := inv_cells h hv
  refine ⟨_, exec_golStep_ok ⟨h.cfg, hidle⟩ hv hg, ?_, fun y hy x hx => ?_, ?_⟩
  · -- GRID_VALID is written, but it is 1 already
    ext1 <;> simp [hv, bitWord]
  · rw [setResponse_readCell, readCell_setGrid, nextGrid_get hx hy, newCell_liveAt h.cfg hg]
  · have hnew := cells_setGrid s _ (gridChanged g (nextGrid s.cfg g)) (nextGrid_length s.cfg g)
    exact decide_eq_true_iff.trans (grids_ne_iff hg hnew rfl)

/-- Settles O24: the life rule cell by cell, and the change read off the cells. -/
theorem golStepIsOneGeneration : Obligations.GolStepIsOneGeneration := by
  refine ⟨decodeCmd_golStep, fun s h hidle hv => ?_, fun s hs => ⟨exec_golStep_none hs, fun cw arg hopc hcw => ?_⟩⟩
  · obtain ⟨t, hexec, hframe, hcell, hchanged⟩ := exec_golStep_generation h hidle hv
    refine ⟨t, hexec, hframe, fun y hy x hx => ?_, hchanged.trans exists_cell_iff.symm⟩
    rw [hcell y hy x hx, lifeRule_eq, State.liveAround]
  · exact Laws.exec_illegal hs (Laws.opc_illegal 5 5 rfl (by decide) hopc hcw) arg

/-! ## GOL.READ and GOL.STATUS (R170, R176) -/

/-- Settles O25: every coordinate is normalised to a cell of the grid, which is there. -/
theorem golReadReadsOneCell : Obligations.GolReadReadsOneCell := by
  refine ⟨decodeCmd_golRead, fun s x y h hidle hv => ?_, fun s hs =>
    ⟨fun x y hv => exec_golRead_none hs hv x y, fun cw arg hopc hcw => ?_⟩⟩
  · obtain ⟨g, hg⟩ := inv_cells h hv
    obtain ⟨b, hb⟩ := readCell_of_cells hg (cellNumber_lt h.cfg (coord x) (coord y))
    exact ⟨b, hb, exec_golRead_ok ⟨h.cfg, hidle⟩ hv hb⟩
  · exact Laws.exec_illegal hs (Laws.opc_illegal 6 6 rfl (by decide) hopc hcw) arg

/-- With the invariant GOL.STATUS finds no defect. -/
theorem inv_gridKnown {s : State} (h : s.Inv) : (s.gridValid && s.cells.isNone) = false := by
  cases hv : s.gridValid with
  | false => rfl
  | true =>
    obtain ⟨g, hg⟩ := inv_cells h hv
    rw [hg]; rfl

theorem allDead_of_no_grid {s : State} (hv : s.gridValid = false) : s.allDead = false := by
  rw [State.allDead, hv, Bool.false_and]

theorem inv_allDead_iff {s : State} (h : s.Inv) :
    s.allDead = true ↔ s.gridValid = true ∧ ∀ j < s.cfg.cells, s.readCell j = some false := by
  cases hv : s.gridValid with
  | false => simp [allDead_of_no_grid hv]
  | true =>
    obtain ⟨g, hg⟩ := inv_cells h hv
    rw [allDead_iff hv hg, and_iff_right rfl]

/-- Settles O26: the status word bit by bit. -/
theorem golStatusReportsTheFlags : Obligations.GolStatusReportsTheFlags := by
  refine ⟨decodeCmd_golStatus, fun s h hidle => ?_, fun s hs cw arg hopc hcw => ?_⟩
  · obtain ⟨hbit0, hbit1, hbit2, hrest⟩ := statusWord_bits s.gridValid s.allDead s.changed
    refine ⟨_, exec_golStatus_ok ⟨h.cfg, hidle⟩ (inv_gridKnown h), hbit0, ?_, hbit2, hrest, fun hv => ?_⟩
    · rw [hbit1, inv_allDead_iff h, forall_cell_iff (p := fun j => s.readCell j = some false)]
    · rw [hv, allDead_of_no_grid hv, h.changedValid hv]; rfl
  · exact Laws.exec_illegal hs (Laws.opc_illegal 7 7 rfl (by decide) hopc hcw) arg

/-! ## Small grids and the corner (R172, R173) -/

/-- The neighbour count position by position, row by row. -/
theorem neighbours_eq_sum (c : Config) (g : List Bool) (x y : Int) : neighbours c g x y =
    ((cellAt c g (x - 1) (y - 1)).toNat + (cellAt c g x (y - 1)).toNat + (cellAt c g (x + 1) (y - 1)).toNat)
      + ((cellAt c g (x - 1) y).toNat + (cellAt c g (x + 1) y).toNat)
      + ((cellAt c g (x - 1) (y + 1)).toNat + (cellAt c g x (y + 1)).toNat + (cellAt c g (x + 1) (y + 1)).toNat) := by
  simp only [neighbours, offsets, List.countP_cons, List.countP_nil, Bool.toNat, Bool.cond_eq_ite, ← sub_eq_add_neg, add_zero]
  omega

/-- On a 1 by 1 grid every position is the cell itself. -/
theorem liveAt_one_by_one {s : State} (hW : s.cfg.golW = 1) (hH : s.cfg.golH = 1) (x y : Int) :
    s.liveAt x y = decide (s.readCell 0 = some true) := by
  simp [State.liveAt, hW, hH]

theorem liveAround_one_by_one {s : State} (hW : s.cfg.golW = 1) (hH : s.cfg.golH = 1) (x y : Int) :
    s.liveAround x y = if s.readCell 0 = some true then 8 else 0 := by
  simp only [State.liveAround, liveAt_one_by_one hW hH]
  by_cases hlive : s.readCell 0 = some true
  · simp only [hlive]; rfl
  · simp only [hlive]; rfl

/-- The cell 0 of the row `.###.` counts columns 4, 0 and 1 of its one row three times, but itself only twice. -/
theorem liveAround_row {s : State} (hv : s.cfg.valid = true) (hW : s.cfg.golW = 5) (hH : s.cfg.golH = 1)
    (hg : s.cells = some [false, true, true, true, false]) : s.liveAround 0 0 = 3 := by
  rw [State.liveAround, ← neighbours_liveAt hv hg, neighbours_eq_sum]
  simp [cellAt, cellNumber, emodIdx, hW, hH]

/-- Settles O27: the counts, and what the life rule makes of them. -/
theorem smallGridsCountEachPosition : Obligations.SmallGridsCountEachPosition := by
  refine ⟨fun s h hidle hv hW hH => ⟨liveAround_one_by_one hW hH, ?_⟩,
    fun s h hidle hv hW hH hg => ⟨liveAround_row h.cfg hW hH hg, ?_⟩⟩
  · obtain ⟨t, hexec, -, hcell, -⟩ := exec_golStep_generation h hidle hv
    refine ⟨t, hexec, ?_⟩
    have hcell := hcell 0 (by omega) 0 (by omega)
    rw [liveAt_one_by_one hW hH, liveAround_one_by_one hW hH] at hcell
    -- a live cell has n = 8 and dies, a dead one n = 0 and stays dead
    by_cases hlive : s.readCell 0 = some true
    · simpa [hlive, lifeRule, hW] using hcell
    · simpa [hlive, lifeRule, hW] using hcell
  · obtain ⟨t, hexec, -, hcell, -⟩ := exec_golStep_generation h hidle hv
    refine ⟨t, hexec, ?_⟩
    have hcell := hcell 0 (by omega) 0 (by omega)
    have hold : s.liveAt 0 0 = false := by
      rw [← cellAt_liveAt h.cfg hg, cellAt, cellNumber, hW, hH]; rfl
    rw [Nat.cast_zero, liveAround_row h.cfg hW hH hg, hold] at hcell
    simpa [lifeRule] using hcell

theorem emodIdx_natCast {a b : Nat} (h : a < b) : emodIdx a b = a := by
  rw [emodIdx, ← Int.natCast_mod, Nat.mod_eq_of_lt h, Int.toNat_natCast]

theorem emodIdx_neg_one {b : Nat} (h : 1 ≤ b) : emodIdx (-1) b = b - 1 := by
  rw [emodIdx, Int.emod_eq_add_self_emod, show (-1 + b : Int) = ((b - 1 : Nat) : Int) by omega]
  exact emodIdx_natCast (by omega)

/-- Settles O28: -1 is normalised to the last column or row. -/
theorem cornerCellCountsTheFarEdges : Obligations.CornerCellCountsTheFarEdges := by
  intro c g hW hH
  have h0 : ∀ {b : Nat}, 2 ≤ b → emodIdx 0 b = 0 := fun hb => emodIdx_natCast (a := 0) (by omega)
  have h1 : ∀ {b : Nat}, 2 ≤ b → emodIdx 1 b = 1 := fun hb => emodIdx_natCast (a := 1) (by omega)
  have hm : ∀ {b : Nat}, 2 ≤ b → emodIdx (-1) b = b - 1 := fun hb => emodIdx_neg_one (by omega)
  simp only [neighbours_eq_sum, cellAt, cellNumber, zero_sub, zero_add, h0 hW, h0 hH, h1 hW, h1 hH, hm hW, hm hH,
    zero_mul, one_mul, add_zero]

end Sys2Proof.Machine
end

section
/-! SUPPORT. The obligations of the control commands (43_control.md): NOP and the reserved row. -/

namespace Sys2Proof.Machine

/-- Settles O7: NOP answers 0 and 0, and of the words with OPC 0 only the word 0 is legal. -/
theorem nopAnswersOk : Obligations.NopAnswersOk := by
  refine ⟨decodeCmd_nop, fun s hs => ⟨exec_nop_ok hs, fun cw arg hopc hbits => ?_⟩⟩
  have hcw : cw ≠ 0 := fun h => hbits (by rw [h]; rfl)
  exact Laws.exec_illegal hs (Laws.opc_illegal 0 0 rfl (by decide) hopc hcw) arg

/-- Settles O8: an opcode from 8 on makes the word illegal. -/
theorem reservedAnswersIllegal : Obligations.ReservedAnswersIllegal := by
  intro s cw arg hs
  refine ⟨Laws.exec_reserved hs cw, fun h => Laws.exec_illegal hs ?_ arg⟩
  obtain hopc | hillegal := h
  · exact (illegalWord_iff cw).2 (.inl hopc)
  · exact hillegal

end Sys2Proof.Machine
end

section
/-! SUPPORT. The obligations of the errors and of the HUNG port (60_exceptions.md): what an error leaves, the error code of each command,
and which input a step takes past the commands that wait at a HUNG port. -/

namespace Sys2Proof.Machine

/-! ## Errors (R201 to R203) -/

/-- Settles O42: of the effects that complete a command, only the error has a code other than 0. -/
theorem errorsArePrecise : Obligations.ErrorsArePrecise := by
  intro s t i hi h hidle herr
  cases exec_effect h with
  | sample => cases hi
  | golHang => cases hidle
  | error => rfl
  | _ => exact absurd rfl herr

theorem execPixWrite_err {idx : Half} {v : Word} {s t : State} (h : execPixWrite idx v s = .next t) :
    t.err = if s.cfg.nLeds ≤ idx.toNat then 2 else 0 := by
  obtain ⟨-, ⟨hbad, rfl⟩ | ⟨hok, rfl⟩⟩ := execPixWrite_next h
  · exact (if_pos hbad).symm
  · exact (if_neg hok.not_ge).symm

theorem execLedEncode_err {n : Word} {s t : State} (h : execLedEncode n s = .next t) :
    t.err = if s.cfg.nLeds < n.toNat then 3 else 0 := by
  obtain ⟨-, ⟨hbad, rfl⟩ | ⟨hok, rfl⟩⟩ := execLedEncode_next h
  · exact (if_pos hbad).symm
  · exact (if_neg hok.not_gt).symm

theorem execLedTx_err {s t : State} (h : execLedTx s = .next t) : t.err = if s.fbValid then 0 else 4 := by
  obtain ⟨-, ⟨hv, rfl⟩ | ⟨hv, bs, -, rfl⟩⟩ := execLedTx_next h <;> rw [hv] <;> rfl

theorem execGolStep_err {s t : State} (h : execGolStep s = .next t) : t.err = if s.gridValid then 0 else 5 := by
  obtain ⟨-, ⟨hv, rfl⟩ | ⟨hv, g, -, rfl⟩⟩ := execGolStep_next h <;> rw [hv] <;> rfl

theorem execGolRead_err {x y : Half} {s t : State} (h : execGolRead x y s = .next t) : t.err = if s.gridValid then 0 else 5 := by
  obtain ⟨-, ⟨hv, rfl⟩ | ⟨hv, b, -, rfl⟩⟩ := execGolRead_next h <;> rw [hv] <;> rfl

/-- A GOL.RESET that completes raises no error: with seed 0 it does not complete (R163). -/
theorem execGolReset_err {seed : Word} {s t : State} (h : execGolReset seed s = .next t) (hidle : t.cmdState = .idle) : t.err = 0 := by
  obtain ⟨-, ⟨-, rfl⟩ | ⟨-, rfl⟩⟩ := execGolReset_next h
  · cases hidle
  · rfl

/-- Settles O43: an illegal word is the reserved row's, and a legal one is a row's with its own error code. -/
theorem everyCommandHasItsErrorCode : Obligations.EveryCommandHasItsErrorCode := by
  intro s t cw arg h hidle
  cases hl : illegalWord cw with
  | true =>
    rw [Laws.decode_illegal hl] at h
    obtain ⟨-, rfl⟩ := execReserved_next cw h
    exact ⟨rfl, fun _ => rfl⟩
  | false =>
    refine ⟨?_, fun hillegal => nomatch hillegal⟩
    cases legalWord_of_legal hl with
    | nop => exact congrArg State.err (execNop_next h).2
    | pixWrite idx => rw [Laws.decode_pix] at h ⊢; exact execPixWrite_err h
    | ledEncode => exact execLedEncode_err h
    | ledTx => exact execLedTx_err h
    | golReset => exact execGolReset_err h hidle
    | golStep => exact execGolStep_err h
    | golRead => exact execGolRead_err h
    | golStatus => exact congrArg State.err (execGolStatus_next h).2.2

/-! ## The input a step takes at a HUNG port (R207, R215) -/

/-- A HUNG port takes what is ready past the waiting commands. -/
theorem fetch_hung_of_ready {s : State} {taken : Input × List Input} (h : s.cmdState = .hung)
    (hready : firstReady s.inputs = some taken) : fetch s = some taken := by
  cases hin : s.inputs with
  | nil => rw [hin] at hready; cases hready
  | cons i l => rw [hin] at hready; simp only [fetch, h, hin, hready]

/-- With nothing ready the oldest command is taken. -/
theorem fetch_hung_of_not_ready {s : State} {i : Input} {l : List Input} (h : s.cmdState = .hung) (hin : s.inputs = i :: l)
    (hready : firstReady s.inputs = none) : fetch s = some (i, l) := by
  rw [hin] at hready
  simp only [fetch, h, hin, hready]

theorem step_reset {s : State} {rest : List Input} (hv : s.cfg.valid = true) (hf : fetch s = some (.reset, rest)) :
    step s = .next ((State.resetWith s.cfg).setInputs rest) :=
  (step_of_fetch_reset hf).trans (resetEvent_of_valid hv)

/-- Settles O46: the reset is taken as the oldest input, and past the commands at a HUNG port. -/
theorem resetEventFromEveryState : Obligations.ResetEventFromEveryState := by
  intro s rest hv
  refine ⟨fun hin => step_reset hv (fetch_reset hin), fun cs hh hin => ?_⟩
  have hready : firstReady s.inputs = some (.reset, rest) := by rw [hin, firstReady_append cs .reset rest nofun, if_pos rfl]
  exact step_reset hv (fetch_hung_of_ready hh hready)

/-- A command word never decodes to a sample. -/
theorem isCommand_decodeCmd (cw arg : Word) : isCommand (decodeCmd cw arg) = true := by
  cases h : illegalWord cw with
  | true => rw [Laws.decode_illegal h]; rfl
  | false =>
    cases legalWord_of_legal h with
    | pixWrite idx => rw [Laws.decode_pix]; rfl
    | _ => rfl

theorem step_hung_of_fetch_cmd {s : State} {cw arg : Word} {rest : List Input} (hv : s.cfg.valid = true) (hh : s.cmdState = .hung)
    (hf : fetch s = some (.cmd cw arg, rest)) : step s = .fault .commandPortHung :=
  (step_of_fetch_instr hf rfl).trans (exec_hung (s := s.setInputs rest) hv hh (isCommand_decodeCmd cw arg))

/-- Settles O48: the first sample is ready, and among commands none is. -/
theorem hungPortLetsDecodersRun : Obligations.HungPortLetsDecodersRun := by
  intro s cs hh
  refine ⟨fun p rest hin => ?_, fun hv hne hin => ?_⟩
  · have hready := firstReady_append cs (.pin p) rest nofun
    rw [← hin, if_neg nofun] at hready
    exact step_of_fetch_instr (fetch_hung_of_ready hh hready) rfl
  · have hready : firstReady s.inputs = none := by rw [hin, firstReady_commands]
    cases cs with
    | nil => exact absurd rfl hne
    | cons c cs => exact step_hung_of_fetch_cmd hv hh (fetch_hung_of_not_ready hh hin hready)

end Sys2Proof.Machine
end

section
/-! SUPPORT. The obligation of reset and hazards (70_reset_and_hazards.md): what each accessor reads after a reset. -/

namespace Sys2Proof.Machine

/-! ## The values after reset (R231) -/

@[simp] theorem resetWith_rqd (c : Config) (k : Knob) : (State.resetWith c).rqd k = Rqd.reset := by
  cases k <;> rfl

@[simp] theorem resetWith_ev (c : Config) (k : Knob) : (State.resetWith c).ev k = [] := by
  cases k <;> rfl

/-- A PIX that lists no word reads the reset value everywhere (10_state.md R28). -/
theorem readPix_of_pix_nil {s : State} (h : s.pix = []) (i : Nat) : s.readPix i = 0 := by
  rw [State.readPix, h, Memory.read, find_nil]
  rfl

/-- Settles O45: both decoders are at the detent, PIX lists no word, ALL_DEAD is 0 because GRID_VALID is, and the other rows are
fields of the reset state. -/
theorem resetLeavesTheStatedValues : Obligations.ResetLeavesTheStatedValues := by
  intro c
  have hpix : ∀ i < c.nLeds, (State.resetWith c).readPix i = 0 := fun i _ => readPix_of_pix_nil rfl i
  have hdead : (State.resetWith c).allDead = false := allDead_of_no_grid rfl
  exact ⟨resetWith_rqd c, rfl, rfl, hpix, rfl, rfl, rfl, hdead, rfl, rfl, rfl, resetWith_ev c, rfl⟩

end Sys2Proof.Machine
end

section
/-! SUPPORT. The obligations of no one part of the block: the parameters over a step (00_scope.md section 3), and the step without
an input (log entry 4). -/

namespace Sys2Proof.Machine

/-- Settles O54: no operation's effect writes the configuration, and a reset starts again with the one it finds. -/
theorem noStepChangesTheParameters : Obligations.NoStepChangesTheParameters := by
  intro s t h
  obtain ⟨-, -, rfl⟩ | ⟨i, rest, instr, -, -, hexec⟩ | ⟨rest, -, -, rfl⟩ := step_next h
  · rfl
  · exact (exec_effect hexec).cfg_eq
  · rfl

/-- Settles O49: with no input presented there is none to take, and the block waits. -/
theorem noInputNoChange : Obligations.NoInputNoChange := by
  intro s hv hin
  have hwait : step s = idleStep s := step_of_fetch_none (fetch_none.2 hin)
  exact hwait.trans (guardConfig_of_valid hv _)

end Sys2Proof.Machine
end
